-- ==== Sys2Proof/Word.lean ====
section
/-! DEFINITION. The bit patterns the block handles, and a bundle of input lines.

Bit 0 of every pattern is its least significant bit (spec R9). The widths are those of the ports of R36 and of
the request form of R37. -/

namespace Sys2Proof

/-- A binary32 bit pattern (R6, R36: `enc_in`, `dec_out`; R37: the result word `r`). -/
abbrev F32 := BitVec 32

/-- A binary16 bit pattern (R6, R36: `enc_out`, `dec_in`). -/
abbrev F16 := BitVec 16

/-- A request word `{op, a}` (R37). -/
abbrev Request := BitVec 33

/-- The levels on a bundle of `w` input lines. Where `unknown` has a 0 the line is at the 0 or 1 that `value` shows;
where `unknown` has a 1 the line holds neither (an "unknown, floating or undriven bit", R94). -/
structure Lines (w : Nat) where
  value   : BitVec w
  unknown : BitVec w
deriving DecidableEq, Repr

/-- Every line at 0 or 1, together showing `v`. -/
def Lines.known {w : Nat} (v : BitVec w) : Lines w := ⟨v, 0⟩

/-- No line driven. -/
def Lines.floating (w : Nat) : Lines w := ⟨0, BitVec.allOnes w⟩

end Sys2Proof
end

