-- ==== Sys2Proof/Config.lean ====
section
/-! DEFINITION. What is fixed for the block: the two formats (spec R6), and the shape of the two open parameters (R7).

The parameters' spec values stand in Machine/Params.lean; the ranges a model may quantify over are checked in
WellFormed.lean. R8: no other implementation parameter exists. -/

namespace Sys2Proof

/-- The fixed parameters of one number format (the table of R6). R13: `bias` is the "constant subtracted from the stored exponent field to
obtain the true exponent". -/
structure Format where
  width     : Nat
  expWidth  : Nat
  fracWidth : Nat
  bias      : Nat
deriving DecidableEq, Repr

/-- R6: `EMAX = 2^EW − 1`, the all-ones exponent field. -/
def Format.expMax (f : Format) : Nat := 2 ^ f.expWidth - 1

/-- R6, column binary32; R13: "floating-point formats with 32 and 16 total bits respectively". -/
def binary32 : Format := ⟨32, 8, 23, 127⟩

/-- R6, column binary16; R13. -/
def binary16 : Format := ⟨16, 5, 10, 15⟩

/-- The two open parameters of R7. Both are 31-bit quantities: `P_OVF_LIMIT` is compared with the magnitude bits 30:0
of a binary32 operand (R61), and `P_DEC_NAN` is the 31 low bits of the decoder's NaN result (R68). -/
structure Params where
  /-- `P_OVF_LIMIT`: the largest binary32 magnitude that the encoder does not clamp. -/
  ovfLimit : BitVec 31
  /-- `P_DEC_NAN`: the decoder's NaN result without its sign. -/
  decNan   : BitVec 31
deriving DecidableEq, Repr

end Sys2Proof
end

