-- ==== Sys2Proof/Machine/Layout.lean ====
section
/-! DEFINITION. The constant table of spec R48, "a shared, compile-time-constant bit-layout table". The numbers are
unsigned integers (R10). R21: wired constants, no state. -/

namespace Sys2Proof.Machine

/-- `SIGN32`: the binary32 sign bit. -/
@[simp] def sign32Mask : Nat := 0x80000000
/-- `EXP32`: the binary32 exponent mask, which is also +Infinity. -/
@[simp] def exp32Mask : Nat := 0x7F800000
/-- `FRAC32`: the binary32 fraction mask. -/
@[simp] def frac32Mask : Nat := 0x007FFFFF
/-- `HID32`: the implicit leading 1 of a binary32 normal significand. -/
@[simp] def hidden32 : Nat := 0x00800000
/-- `SIGN16`: the binary16 sign bit. -/
@[simp] def sign16Mask : Nat := 0x8000
/-- `EXP16`: the binary16 exponent mask, which is also +Infinity. -/
@[simp] def exp16Mask : Nat := 0x7C00
/-- `FRAC16`: the binary16 fraction mask. -/
@[simp] def frac16Mask : Nat := 0x03FF
/-- `ENC_NAN`: binary16 exponent and fraction all ones. -/
@[simp] def encNan : Nat := 0x7FFF
/-- `SHIFT`: the difference of the fraction widths, 23 − 10. -/
@[simp] def fracShift : Nat := 13
/-- `BIASDIFF32`: `(127 − 15) << 23`, the bias difference in binary32's exponent position. R63 and conflict C1: it is
SUBTRACTED by the encoder. -/
@[simp] def biasDiff32 : Nat := 0x38000000
/-- `MIN16_NORM32`: 2^−14, the smallest binary16 normal magnitude, as binary32 magnitude bits. -/
@[simp] def min16Norm32 : Nat := 0x38800000
/-- `EMIN16`: the exponent of the smallest binary16 normal. -/
@[simp] def emin16 : Int := -14
/-- `UF_BASE`: `EMIN16` + 127. -/
@[simp] def ufBase : Nat := 113
/-- `MIN16_SUB32`: 2^−24, the smallest binary16 subnormal, as a binary32 pattern. -/
@[simp] def min16Sub32 : Nat := 0x33800000
/-- `REBIAS`: 127 − 15. -/
@[simp] def rebias : Nat := 112

end Sys2Proof.Machine
end

