-- ==== Sys2Proof/Machine/Operands.lean ====
section
/-! DEFINITION. The operand forms and the result assembly: the fields of a pattern (spec R39, R40, R47), putting a sign on a
magnitude, and the result word of the request form (R41). R42: no operand is an immediate, scaled or sign-extended.

Fields are unsigned integers (R10). -/

namespace Sys2Proof.Machine

/-- R39: `s = x[31]`. -/
def sign32 (x : F32) : Nat := (x.extractLsb' 31 1).toNat

/-- R39: `E = x[30:23]`. -/
def exp32 (x : F32) : Nat := (x.extractLsb' 23 8).toNat

/-- R39: `F = x[22:0]`. -/
def frac32 (x : F32) : Nat := (x.extractLsb' 0 23).toNat

/-- R39: `mag = x[30:0]`. -/
def mag32 (x : F32) : Nat := (x.extractLsb' 0 31).toNat

/-- R40: `s = h[15]`. -/
def sign16 (h : F16) : Nat := (h.extractLsb' 15 1).toNat

/-- R40: `e = h[14:10]`. -/
def exp16 (h : F16) : Nat := (h.extractLsb' 10 5).toNat

/-- R40: `m = h[9:0]`. -/
def frac16 (h : F16) : Nat := (h.extractLsb' 0 10).toNat

/-- R14: the magnitude of a binary16 pattern, bits 14:0. -/
def mag16 (h : F16) : Nat := (h.extractLsb' 0 15).toNat

/-- `(s << 15) | v`: a binary16 pattern from its sign and its magnitude bits (R58). -/
def pack16 (s v : Nat) : F16 := BitVec.ofNat 16 (s <<< 15 ||| v)

/-- `(s << 31) | v`: a binary32 pattern from its sign and its magnitude bits (R66). -/
def pack32 (s v : Nat) : F32 := BitVec.ofNat 32 (s <<< 31 ||| v)

/-- R41, `op = 0`: "the 16-bit encoder result goes in `r[15:0]`, and `r[31:16]` is 0". -/
def encResult (out : F16) : BitVec 32 := out.zeroExtend 32

/-- R41, `op = 1`: "the 32-bit decoder result is `r`". -/
def decResult (out : F32) : BitVec 32 := out

end Sys2Proof.Machine
end

