-- ==== Sys2Proof/Syntax.lean ====
section
/-! DEFINITION. The two operations of the opcode table (spec R38), as the request form of R37 carries them.

R2, R38, R43, R46, R95 to R99: no other operation, pseudo-instruction, hint or reserved encoding exists. -/

namespace Sys2Proof

/-- One request. The operand bus `a` of R37 is carried whole, so that no bit of a request is lost. -/
inductive Instr where
  /-- `EncodeF32ToF16` (`op = 0`, R38): the operand `x = a[31:0]` is a binary32 pattern (R39). -/
  | encodeF32ToF16 (x : F32)
  /-- `DecodeF16ToF32` (`op = 1`, R38): the operand `h = a[15:0]` is a binary16 pattern; `ignored = a[31:16]` never
  changes the result (R40). -/
  | decodeF16ToF32 (ignored : BitVec 16) (h : F16)
deriving DecidableEq, Repr

end Sys2Proof
end

