-- ==== Sys2Proof/Decode.lean ====
section
/-! DEFINITION. The request form (spec R37, R38, R44): the decoder of requests, the encoder, and the opcode table's rows.

The decoder is total. R43: no request word is illegal, reserved or a hint. The only numbers it turns away, by name, are
those that are no 33-bit word at all (R44). -/

namespace Sys2Proof

/-- R37, R38, R44: bit 32 is `op` and "a decoder of requests reads `op` and needs nothing else to tell the operation".
The operand fields are those of R39 and R40. -/
def decode (w : Request) : Instr :=
  if w.getLsbD 32 then .decodeF16ToF32 (w.extractLsb' 16 16) (w.extractLsb' 0 16)
  else .encodeF32ToF16 (w.extractLsb' 0 32)

/-- The request word `{op, a}` of an instruction (R37, R38), `op` in the high bit. -/
def encode (i : Instr) : Request :=
  match i with
  | .encodeF32ToF16 x => 0#1 ++ x
  | .decodeF16ToF32 ignored h => 1#1 ++ (ignored ++ h)

/-- Why a number is turned away by the decoder. -/
inductive DecodeReject where
  /-- R44: "Every request is 33 bits". The number has a bit at position 33 or above. Safe: no request is such a number. -/
  | widerThanARequest
deriving DecidableEq, Repr

/-- The decoder on any number of bits: a number below `2^33` is a request word, any other is rejected by name. -/
def decodeWord (w : Nat) : Except DecodeReject Instr :=
  if w < 2 ^ 33 then .ok (decode (BitVec.ofNat 33 w)) else .error .widerThanARequest

/-- The instruction the decoder reads from the table word `w`. A request has one form and one length (R44), so how many
bytes the table's row fills changes nothing. -/
def decodeTableWord (_nbits w : Nat) : Option Instr :=
  match decodeWord w with
  | .ok i => some i
  | .error _ => none

/-- One row of the opcode table: the word `w` is the row's when `w` under `mask` is `bits`. -/
structure OpRow where
  mnemonic : String
  mask     : Request
  bits     : Request
deriving DecidableEq, Repr

/-- The row of `EncodeF32ToF16` in the opcode table (R38, `op = 0`). -/
def rowEncodeF32ToF16 : OpRow := ⟨"EncodeF32ToF16", 0x100000000, 0x000000000⟩

/-- The row of `DecodeF16ToF32` in the opcode table (R38, `op = 1`). -/
def rowDecodeF16ToF32 : OpRow := ⟨"DecodeF16ToF32", 0x100000000, 0x100000000⟩

/-- The opcode table, row by row (R38). -/
def opcodeTable : List OpRow := [rowEncodeF32ToF16, rowDecodeF16ToF32]

/-- Whether a request word belongs to a row. -/
def OpRow.covers (row : OpRow) (w : Request) : Bool := w &&& row.mask == row.bits

/-- The row an instruction stands in. -/
def rowOf (i : Instr) : OpRow :=
  match i with
  | .encodeF32ToF16 _ => rowEncodeF32ToF16
  | .decodeF16ToF32 _ _ => rowDecodeF16ToF32

end Sys2Proof
end

