-- ==== Sys2Proof/Machine/Params.lean ====
section
/-! DEFINITION. The spec values of the two open parameters (spec R7, decisions D5 and D6). -/

namespace Sys2Proof.Machine

/-- R7, R61: the spec value of `P_OVF_LIMIT` (decision D5; log entry 3). -/
def specOvfLimit : BitVec 31 := 0x477FFFFF

/-- R7, R68: the spec value of `P_DEC_NAN` (decision D6; log entry 3). -/
def specDecNan : BitVec 31 := 0x7FC00000

/-- The parameters at their spec values. -/
def specParams : Params := ⟨specOvfLimit, specDecNan⟩

end Sys2Proof.Machine
end

