-- ==== Sys2Proof/Machine/State.lean ====
section
/-! DEFINITION. The state, and the reasons a step can stop.

THE BLOCK ITSELF HOLDS NO STATE (spec R16 to R23: no register, program counter, flag, control register, memory or hidden
state). A machine as `Host.Core` wants it still has to say what a step reads and where its result is seen. So this
`State` is the block's BOUNDARY: the levels on its input ports (R36, R37), what the caller will still ask of it, what it
has already answered (R93), and the two parameters it was built with (R7). Log entries 1, 3 and 6. Output ports are no
fields: they are functions of the input ports at every moment (R89; `State.encOut`, `State.decOut`, `State.r`). -/

namespace Sys2Proof.Machine

/-- An input port (R36), or the request word of the request form (R37). -/
inductive Port where
  | encIn
  | decIn
  | req
deriving DecidableEq, Repr

/-- What the caller does to the block at one instant (R93: an evaluation takes "a 32-bit `x` for ENC, or a 16-bit `h` for
DEC, or a 33-bit request"; R85: "The ENC and DEC units may evaluate at the same time"). -/
inductive Stimulus where
  /-- A request through the form of R37. -/
  | request (req : Lines 33)
  /-- An operand on `enc_in` alone. -/
  | enc (x : Lines 32)
  /-- An operand on `dec_in` alone. -/
  | dec (h : Lines 16)
  /-- Operands on `enc_in` and `dec_in` in the same instant. -/
  | both (x : Lines 32) (h : Lines 16)
deriving DecidableEq, Repr

/-- One evaluation the block has made: its operand and its one result (R14, R93). -/
inductive Evaluation where
  /-- A request and its result word `r` (R37, R41). -/
  | request (i : Instr) (r : BitVec 32)
  /-- An operand of ENC and `enc_out` (R36). -/
  | enc (x : F32) (out : F16)
  /-- An operand of DEC and `dec_out` (R36). -/
  | dec (h : F16) (out : F32)
deriving DecidableEq, Repr

/-- The block's boundary and its build parameters (see the head of this file). -/
structure State where
  /-- The parameters of R7 the block was built with. No operation writes them (R8, R20, R21). -/
  params  : Params
  /-- The levels on port `enc_in` (R36). -/
  encIn   : Lines 32
  /-- The levels on port `dec_in` (R36). -/
  decIn   : Lines 16
  /-- The levels on the request lines (R37). -/
  req     : Lines 33
  /-- What the caller will still do, next first (R93: a run is a finite sequence of evaluations). -/
  pending : List Stimulus
  /-- The evaluations made so far, oldest first: what the caller has received. No meaning reads it (R23). -/
  served  : List Evaluation
deriving DecidableEq, Repr

/-- The reasons the block could stop with a fault: none. R74: "A model's step for this block therefore has no fault outcome";
R79: nothing traps. -/
inductive Fault where
deriving DecidableEq, Repr

/-- The reasons the model declines to go on. -/
inductive Refusal where
  /-- Raised by an arm of `exec` whose instruction has no meaning yet. Safe. No arm of this model raises it. -/
  | notModelled (mnemonic : String)
  /-- Raised by serving a stimulus when a line of the port is neither 0 nor 1. R94: "An input with an unknown, floating or
  undriven bit is outside this spec, and a model refuses it rather than choosing a value for it". Safe. -/
  | undrivenInput (port : Port)
deriving DecidableEq, Repr

/-- The block as it is powered up, before its caller has done anything: no line driven, nothing asked, nothing answered,
the parameters at their spec values. R88: "The block has no reset input and no state to reset". Log entries 2 and 3. -/
def State.reset : State where
  params  := specParams
  encIn   := Lines.floating 32
  decIn   := Lines.floating 16
  req     := Lines.floating 33
  pending := []
  served  := []

end Sys2Proof.Machine
end

