-- ==== Sys2Proof/Machine/Ops.lean ====
section
/-! DEFINITION. The operations over the boundary that the meanings share: reading a bundle of lines, driving a port, recording an
evaluation, taking the next stimulus.

There is no operation over registers or memory (spec R17, R24), and none that takes or leaves an exception: R74 "No operand of
either operation raises an exception", R79 "no state is saved, no mode or mask changes", R80 "no return-from-trap operation". -/

namespace Sys2Proof.Machine

/-- What a bundle of lines shows: a pattern when every line is at 0 or 1, nothing otherwise (R94). -/
def readLines {w : Nat} (l : Lines w) : Option (BitVec w) := if l.unknown = 0 then some l.value else none

/-- `x` on port `enc_in` (R36). -/
def driveEnc (x : F32) (s : State) : State := { s with encIn := Lines.known x }

/-- `h` on port `dec_in` (R36). -/
def driveDec (h : F16) (s : State) : State := { s with decIn := Lines.known h }

/-- The request word `w` on the request lines (R37). -/
def driveReq (w : Request) (s : State) : State := { s with req := Lines.known w }

/-- The caller receives one more evaluation's result (R93). -/
def record (e : Evaluation) (s : State) : State := { s with served := s.served ++ [e] }

/-- What the caller will still do is now `rest`. -/
def setPending (rest : List Stimulus) (s : State) : State := { s with pending := rest }

end Sys2Proof.Machine
end

