-- ==== Sys2Proof/Machine/Decoder.lean ====
section
/-! DEFINITION. The decoder: `Decode` (spec R66 to R70) and the meaning of `DecodeF16ToF32`. -/

namespace Sys2Proof.Machine

/-- R13, R56: the canonical NaN of the decoder, fixed by the parameter except for its sign bit (conflict C6). It has no argument for a payload,
so none can reach it. -/
def canonicalNan32 (p : Params) (s : Nat) : F32 := pack32 s p.decNan.toNat

/-- R66: `Decode(h)`, path by path: infinity (R67), NaN (R68), zero and subnormal (R69), normal (R70). `Nat.log2 m` is the index of
the highest 1 bit of a nonzero `m`. -/
def codecDecode (p : Params) (h : F16) : F32 :=
  if exp16 h = 31 ∧ frac16 h = 0 then pack32 (sign16 h) exp32Mask
  else if exp16 h = 31 ∧ frac16 h ≠ 0 then canonicalNan32 p (sign16 h)
  else if exp16 h = 0 then
    if frac16 h = 0 then pack32 (sign16 h) 0
    else pack32 (sign16 h)
      ((103 + Nat.log2 (frac16 h)) <<< 23 ||| (frac16 h <<< (23 - Nat.log2 (frac16 h))) &&& frac32Mask)
  else pack32 (sign16 h) ((exp16 h + rebias) <<< 23 ||| frac16 h <<< fracShift)

/-- `DecodeF16ToF32` (R66): the request drives the DEC unit with `h` and its result is that unit's output, assembled by R41. The upper
half of the operand bus has no effect on it (R40). -/
def execDecodeF16ToF32 (ignored : BitVec 16) (h : F16) (s : State) : Host.Outcome State Fault Refusal :=
  .next (record (.request (.decodeF16ToF32 ignored h) (decResult (codecDecode s.params h))) (driveDec h s))

end Sys2Proof.Machine
end

