-- ==== Sys2Proof/Machine/Encoder.lean ====
section
/-! DEFINITION. The encoder: `Encode` (spec R58 to R63) and the meaning of `EncodeF32ToF16`. -/

namespace Sys2Proof.Machine

/-- R13, R56: the canonical NaN of the encoder, "a single fixed not-a-number bit pattern", fixed except for its sign bit (conflict C6). It has
no argument for a payload, so none can reach it. -/
def canonicalNan16 (s : Nat) : F16 := pack16 s encNan

/-- R58: `Encode(x)`, path by path: NaN (R59), infinity (R60), overflow clamp (R61), underflow (R62), normal range (R63). The
arithmetic is exact (R10): a right shift past the last bit gives 0, which with the sign is the
flush-to-zero of R13 and R62, and conflict C1 makes the bias difference a
subtraction. -/
def codecEncode (p : Params) (x : F32) : F16 :=
  if exp32 x = 0xFF ∧ frac32 x ≠ 0 then canonicalNan16 (sign32 x)
  else if exp32 x = 0xFF ∧ frac32 x = 0 then pack16 (sign32 x) exp16Mask
  else if mag32 x > p.ovfLimit.toNat then canonicalNan16 (sign32 x)
  else if mag32 x < min16Norm32 then
    pack16 (sign32 x) (((hidden32 ||| frac32 x) >>> (ufBase - exp32 x)) >>> fracShift)
  else pack16 (sign32 x) ((mag32 x - biasDiff32) >>> fracShift)

/-- `EncodeF32ToF16` (R58): the request drives the ENC unit with `x` and its result is that unit's output, assembled by R41. -/
def execEncodeF32ToF16 (x : F32) (s : State) : Host.Outcome State Fault Refusal :=
  .next (record (.request (.encodeF32ToF16 x) (encResult (codecEncode s.params x))) (driveEnc x s))

end Sys2Proof.Machine
end

