-- ==== Sys2Proof/Machine/Dispatch.lean ====
section
/-! DEFINITION. One arm per constructor of Instr. -/

namespace Sys2Proof.Machine

/-- The meaning of an instruction (spec R38). -/
def exec (i : Instr) (s : State) : Host.Outcome State Fault Refusal :=
  match i with
  | .encodeF32ToF16 x => Sys2Proof.Machine.execEncodeF32ToF16 x s
  | .decodeF16ToF32 ignored h => Sys2Proof.Machine.execDecodeF16ToF32 ignored h s

end Sys2Proof.Machine
end

