-- ==== Sys2Proof/Machine/Ports.lean ====
section
/-! DEFINITION. The separate-port form (spec R36): the output ports, and evaluations on `enc_in` and `dec_in`. -/

namespace Sys2Proof.Machine

/-- R36, R89: `enc_out = Encode(enc_in)` at every moment; nothing is said of it while a line of `enc_in` is undriven (R94). -/
def State.encOut (s : State) : Option F16 := (readLines s.encIn).map (codecEncode s.params)

/-- R36, R89: `dec_out = Decode(dec_in)` at every moment; nothing is said of it while a line of `dec_in` is undriven (R94). -/
def State.decOut (s : State) : Option F32 := (readLines s.decIn).map (codecDecode s.params)

/-- R38, R41: the result word of a request. -/
def respond (p : Params) (i : Instr) : BitVec 32 :=
  match i with
  | .encodeF32ToF16 x => encResult (codecEncode p x)
  | .decodeF16ToF32 _ h => decResult (codecDecode p h)

/-- R37: the result word `r` of the request on the request lines, at every moment. -/
def State.r (s : State) : Option (BitVec 32) := (readLines s.req).map (fun w => respond s.params (decode w))

/-- An evaluation of ENC on its own port (R36, R93). -/
def evalEnc (x : F32) (s : State) : State := record (.enc x (codecEncode s.params x)) (driveEnc x s)

/-- An evaluation of DEC on its own port (R36, R93). -/
def evalDec (h : F16) (s : State) : State := record (.dec h (codecDecode s.params h)) (driveDec h s)

/-- Operand lines on `enc_in`: an evaluation of ENC, refused while a line is undriven (R94). -/
def serveEnc (l : Lines 32) (s : State) : Host.Outcome State Fault Refusal :=
  match readLines l with
  | none => .refused (.undrivenInput .encIn)
  | some x => .next (evalEnc x s)

/-- Operand lines on `dec_in`: an evaluation of DEC, refused while a line is undriven (R94). -/
def serveDec (l : Lines 16) (s : State) : Host.Outcome State Fault Refusal :=
  match readLines l with
  | none => .refused (.undrivenInput .decIn)
  | some h => .next (evalDec h s)

/-- Operand lines on both ports in one instant (R85): two evaluations, each of its own unit's input alone. The order in which the two
stand in `served` is the model's (log entry 10). -/
def serveBoth (le : Lines 32) (ld : Lines 16) (s : State) : Host.Outcome State Fault Refusal :=
  match readLines le, readLines ld with
  | none, _ => .refused (.undrivenInput .encIn)
  | some _, none => .refused (.undrivenInput .decIn)
  | some x, some h => .next (evalDec h (evalEnc x s))

/-- No stimulus: time passes and nothing changes (R93: the run "ends when the caller issues no further request"; log entry 5). -/
def idle (s : State) : Host.Outcome State Fault Refusal := .next s

end Sys2Proof.Machine
end

