-- ==== Sys2Proof/Machine/Serve.lean ====
section
/-! DEFINITION. Serving one stimulus: a request is read off its lines, decoded and executed (spec R37, R93); operands on the separate ports
are evaluated by their units (R36). Also where a table word is placed to be served next. -/

namespace Sys2Proof.Machine

/-- A request: put it on the request lines and execute it (R37); refused while a line is undriven (R94). -/
def serveRequest (l : Lines 33) (s : State) : Host.Outcome State Fault Refusal :=
  match readLines l with
  | none => .refused (.undrivenInput .req)
  | some w => exec (decode w) (driveReq w s)

/-- One stimulus of the caller. -/
def serve (st : Stimulus) (s : State) : Host.Outcome State Fault Refusal :=
  match st with
  | .request l => serveRequest l s
  | .enc l => serveEnc l s
  | .dec l => serveDec l s
  | .both le ld => serveBoth le ld s

/-- The request lines for the table word `w`: its 33 bits, all driven. A number that is no 33-bit word (R44) names no request; its lines
float, so that serving it is refused, as the decoder rejects it. -/
def tableLines (w : Nat) : Lines 33 := if w < 2 ^ 33 then Lines.known (BitVec.ofNat 33 w) else Lines.floating 33

end Sys2Proof.Machine
end

