-- ==== Sys2Proof/Machine/Step.lean ====
section
/-! DEFINITION. One step: the block serves the next stimulus of its caller (spec R93, "One evaluation is one step of a model"). -/

namespace Sys2Proof.Machine

/-- R93: one step serves the caller's next stimulus; with none left, nothing happens (log entry 5). -/
def step (s : State) : Host.Outcome State Fault Refusal :=
  match s.pending with
  | [] => idle s
  | st :: rest => serve st (setPending rest s)

/-- `s` with the request of the table word `w` as the very next thing its caller asks (log entry 7). -/
def State.withFetchWord (s : State) (_nbits w : Nat) : State := setPending (.request (tableLines w) :: s.pending) s

end Sys2Proof.Machine
end

