-- ==== Sys2Proof/Machine/Classify.lean ====
section
/-! DEFINITION. What a pattern denotes: its category (spec R49), its value (R51), and the encoder's region (R53).

No port shows any of it (R36, decision D14). -/

namespace Sys2Proof.Machine

/-- The five categories (R15, R49; conflict C2). R13: a subnormal is "represented with exponent field zero". -/
inductive Category where
  | zero
  | subnormal
  | normal
  | infinity
  | nan
deriving DecidableEq, Repr

/-- R49: the category of a pattern with exponent field `ex` and fraction field `fr`. The sign does not enter. -/
def categoryOf (f : Format) (ex fr : Nat) : Category :=
  if ex = 0 then (if fr = 0 then .zero else .subnormal)
  else if ex = f.expMax then (if fr = 0 then .infinity else .nan)
  else .normal

/-- R49: `class32`. -/
def class32 (x : F32) : Category := categoryOf binary32 (exp32 x) (frac32 x)

/-- R49: `class16`. -/
def class16 (h : F16) : Category := categoryOf binary16 (exp16 h) (frac16 h)

/-- The values a pattern can denote (R51). `finite` is a nonzero number; a NaN has "no numeric value". -/
inductive Value where
  | zero (negative : Bool)
  | finite (v : ℚ)
  | infinity (negative : Bool)
  | nan
deriving DecidableEq, Repr

/-- R51: the value of the pattern with sign `s`, exponent field `ex` and fraction field `fr`. -/
def valueOf (f : Format) (s ex fr : Nat) : Value :=
  match categoryOf f ex fr with
  | .zero => .zero (s == 1)
  | .subnormal => .finite ((-1) ^ s * fr * 2 ^ (1 - (f.bias : ℤ) - f.fracWidth))
  | .normal => .finite ((-1) ^ s * (1 + fr / 2 ^ f.fracWidth) * 2 ^ ((ex : ℤ) - f.bias))
  | .infinity => .infinity (s == 1)
  | .nan => .nan

/-- R51: `val32`. -/
def val32 (x : F32) : Value := valueOf binary32 (sign32 x) (exp32 x) (frac32 x)

/-- R51: `val16`. -/
def val16 (h : F16) : Value := valueOf binary16 (sign16 h) (exp16 h) (frac16 h)

/-- `|v|`, with the infinities at the top; a NaN has none (R51, R52). -/
def Value.abs (v : Value) : Option (WithTop ℚ) :=
  match v with
  | .zero _ => some ((0 : ℚ) : WithTop ℚ)
  | .finite q => some ((|q| : ℚ) : WithTop ℚ)
  | .infinity _ => some ⊤
  | .nan => none

/-- The encoder's regions (R53). -/
inductive Region where
  | nan
  | inf
  | overflow
  | underflow
  | normalRange
deriving DecidableEq, Repr

/-- R53: the tests in the source's step order; "the first test that holds decides". -/
def region (p : Params) (x : F32) : Region :=
  if exp32 x = 255 ∧ frac32 x ≠ 0 then .nan
  else if exp32 x = 255 ∧ frac32 x = 0 then .inf
  else if mag32 x > p.ovfLimit.toNat then .overflow
  else if mag32 x < min16Norm32 then .underflow
  else .normalRange

end Sys2Proof.Machine
end

