-- ==== Sys2Proof/Machine/Text.lean ====
section
/-! DEFINITION. The textual form of a request (spec R45, decision D10): reading and writing it.

A text is a list of characters. The operand of `EncodeF32ToF16` is `0x` and 8 hex digits, or a decimal that binary32 represents
exactly, or a signed `Infinity`; that of `DecodeF16ToF32` is `0x` and 4 hex digits. What R45 leaves open of the grammar is log
entry 9. -/

namespace Sys2Proof.Machine

/-- Why a text is turned away. -/
inductive TextReject where
  /-- The text is not of the form R45 gives. Safe: such a text has no meaning. -/
  | malformed
  /-- R45: "A decimal that binary32 does not represent exactly is refused, not rounded." Safe. -/
  | inexactDecimal
deriving DecidableEq, Repr

/-- The value of a hexadecimal digit, of either case. -/
def hexValue (c : Char) : Option Nat :=
  if '0'.toNat ≤ c.toNat ∧ c.toNat ≤ '9'.toNat then some (c.toNat - '0'.toNat)
  else if 'A'.toNat ≤ c.toNat ∧ c.toNat ≤ 'F'.toNat then some (c.toNat - 'A'.toNat + 10)
  else if 'a'.toNat ≤ c.toNat ∧ c.toNat ≤ 'f'.toNat then some (c.toNat - 'a'.toNat + 10)
  else none

/-- The value of a decimal digit. -/
def decValue (c : Char) : Option Nat :=
  if '0'.toNat ≤ c.toNat ∧ c.toNat ≤ '9'.toNat then some (c.toNat - '0'.toNat) else none

/-- The number that digits spell in a base, most significant first, after `acc`; nothing if some character is no digit. -/
def readDigits (base : Nat) (digit : Char → Option Nat) (acc : Nat) (cs : List Char) : Option Nat :=
  match cs with
  | [] => some acc
  | c :: rest =>
    match digit c with
    | none => none
    | some d => readDigits base digit (acc * base + d) rest

/-- Exactly `n` hexadecimal digits. -/
def readHex (n : Nat) (cs : List Char) : Option Nat := if cs.length = n then readDigits 16 hexValue 0 cs else none

/-- `cs` without the characters of `lead` at its front. -/
def stripFront (lead cs : List Char) : Option (List Char) :=
  match lead, cs with
  | [], rest => some rest
  | _ :: _, [] => none
  | a :: lead', c :: cs' => if a = c then stripFront lead' cs' else none

/-- The magnitude bits of the binary32 pattern whose magnitude is `q` times 2^−149 (the smallest binary32 subnormal, R51), if there is
one: below 2^23 a subnormal with fraction `q`, above it a normal if the bits below its 24 leading ones are 0 and its exponent
field is at most 254. -/
def magnitudeOfUnits (q : Nat) : Option Nat :=
  if q < 2 ^ 23 then some q
  else if q % 2 ^ (Nat.log2 q - 23) ≠ 0 then none
  else if Nat.log2 q - 23 + 1 > 254 then none
  else some ((Nat.log2 q - 23 + 1) * 2 ^ 23 + (q / 2 ^ (Nat.log2 q - 23) - 2 ^ 23))

/-- R45: "A decimal operand names the binary32 pattern of exactly that value": of `n / 10^k`, negated if `negative`. -/
def exactF32 (negative : Bool) (n k : Nat) : Option F32 :=
  if n * 2 ^ 149 % 10 ^ k ≠ 0 then none
  else (magnitudeOfUnits (n * 2 ^ 149 / 10 ^ k)).map (pack32 negative.toNat)

/-- An unsigned decimal: digits, or digits, a point and digits. Answers `(n, k)` for the value `n / 10^k`. -/
def readDecimal (cs : List Char) : Option (Nat × Nat) :=
  match cs.span (fun c => c ≠ '.') with
  | ([], _) => none
  | (whole, []) => (readDigits 10 decValue 0 whole).map (fun n => (n, 0))
  | (_, [_]) => none
  | (whole, _ :: part) => (readDigits 10 decValue 0 (whole ++ part)).map (fun n => (n, part.length))

/-- A decimal after its sign, to the pattern of exactly that value (R45). -/
def decimalOperand (negative : Bool) (cs : List Char) : Except TextReject F32 :=
  match readDecimal cs with
  | none => .error .malformed
  | some (n, k) =>
    match exactF32 negative n k with
    | none => .error .inexactDecimal
    | some x => .ok x

/-- What follows a written sign: `Infinity` (R45) or a decimal. -/
def signedOperand (negative : Bool) (cs : List Char) : Except TextReject F32 :=
  if cs = "Infinity".toList then .ok (pack32 negative.toNat exp32Mask) else decimalOperand negative cs

/-- `<x>` of R45. -/
def encoderOperand (cs : List Char) : Except TextReject F32 :=
  match cs with
  | '0' :: 'x' :: digits =>
    match readHex 8 digits with
    | none => .error .malformed
    | some v => .ok (BitVec.ofNat 32 v)
  | '-' :: rest => signedOperand true rest
  | '+' :: rest => signedOperand false rest
  | rest => decimalOperand false rest

/-- `<h>` of R45. -/
def decoderOperand (cs : List Char) : Except TextReject F16 :=
  match cs with
  | '0' :: 'x' :: digits =>
    match readHex 4 digits with
    | none => .error .malformed
    | some v => .ok (BitVec.ofNat 16 v)
  | _ => .error .malformed

/-- The operand between the parentheses: the text up to a `)` that ends it. -/
def untilClose (cs : List Char) : Option (List Char) :=
  match cs with
  | [] => none
  | [c] => if c = ')' then some [] else none
  | c :: rest => (untilClose rest).map (c :: ·)

/-- R45: the request a text stands for. A text has no place for the ignored half of the decoder's operand bus, which is 0 here. -/
def readText (cs : List Char) : Except TextReject Instr :=
  match stripFront "EncodeF32ToF16(".toList cs with
  | some rest =>
    match untilClose rest with
    | none => .error .malformed
    | some operand => (encoderOperand operand).map .encodeF32ToF16
  | none =>
    match stripFront "DecodeF16ToF32(".toList cs with
    | none => .error .malformed
    | some rest =>
      match untilClose rest with
      | none => .error .malformed
      | some operand => (decoderOperand operand).map (.decodeF16ToF32 0)

/-- A hexadecimal digit, as the spec writes it. -/
def hexDigit (d : Nat) : Char :=
  if d < 10 then Char.ofNat ('0'.toNat + d) else Char.ofNat ('A'.toNat + (d - 10))

/-- The `n` low hexadecimal digits of `v`, most significant first. -/
def writeHex (n v : Nat) : List Char :=
  match n with
  | 0 => []
  | n + 1 => writeHex n (v / 16) ++ [hexDigit (v % 16)]

/-- R45: a request's text, its operand in hexadecimal. -/
def writeText (i : Instr) : List Char :=
  match i with
  | .encodeF32ToF16 x => "EncodeF32ToF16(0x".toList ++ writeHex 8 x.toNat ++ [')']
  | .decodeF16ToF32 _ h => "DecodeF16ToF32(0x".toList ++ writeHex 4 h.toNat ++ [')']

end Sys2Proof.Machine
end

