-- ==== Sys2Proof/WellFormed.lean ====
section
/-! DEFINITION. Well-formedness: of an instruction (nothing to check, spec R43) and of the parameters (the ranges of R7). -/

namespace Sys2Proof

/-- R43: "Both `op` values are assigned, and every operand pattern of both widths is defined". The widths are in the
types, so every term of `Instr` is well formed. -/
def Instr.wf (i : Instr) : Bool :=
  match i with
  | .encodeF32ToF16 _ => true
  | .decodeF16ToF32 _ _ => true

/-- R7, row `P_OVF_LIMIT`: "any value in `0x477FE000 ..= 0x477FFFFF`". -/
def Params.ovfLimitOk (p : Params) : Bool :=
  decide (0x477FE000 ≤ p.ovfLimit.toNat) && decide (p.ovfLimit.toNat ≤ 0x477FFFFF)

/-- R7, row `P_DEC_NAN`: "any pattern whose bits 30:23 are all ones and whose bits 22:0 are not zero". -/
def Params.decNanOk (p : Params) : Bool :=
  decide (p.decNan.extractLsb' 23 8 = 0xFF) && decide (p.decNan.extractLsb' 0 23 ≠ 0)

/-- Both parameters are in the ranges of R7. -/
def Params.wf (p : Params) : Bool := p.ovfLimitOk && p.decNanOk

end Sys2Proof
end

