-- ==== Sys2Proof/Safety.lean ====
section
/-! DEFINITION. What counts as a safe run, in the terms the statements use: every input line driven (spec R94), the parameters in
range (R7), every answer right (R30). -/

namespace Sys2Proof.Machine

/-- R94: "Every input bit is 0 or 1 when an evaluation takes place". -/
def linesDriven {w : Nat} (l : Lines w) : Bool := l.unknown == 0

/-- Every line of a stimulus is driven. -/
def Stimulus.driven (st : Stimulus) : Bool :=
  match st with
  | .request l => linesDriven l
  | .enc l => linesDriven l
  | .dec l => linesDriven l
  | .both le ld => linesDriven le && linesDriven ld

/-- The evaluations that a driven stimulus asks for, each with the result the rules give it from its own operand alone
(R30: "each result equals `Encode(x)` or `Decode(h)` of its own input"). With both ports in one instant ENC stands first (log entry 10). -/
def Stimulus.answers (p : Params) (st : Stimulus) : List Evaluation :=
  match st with
  | .request l => [.request (decode l.value) (respond p (decode l.value))]
  | .enc l => [.enc l.value (codecEncode p l.value)]
  | .dec l => [.dec l.value (codecDecode p l.value)]
  | .both le ld => [.enc le.value (codecEncode p le.value), .dec ld.value (codecDecode p ld.value)]

/-- A recorded evaluation holds the result of its own operand (R30, R36, R41). -/
def Evaluation.right (p : Params) (e : Evaluation) : Prop :=
  match e with
  | .request i r => r = respond p i
  | .enc x out => out = codecEncode p x
  | .dec h out => out = codecDecode p h

/-- The invariant: the parameters are in the ranges of R7, and every evaluation the block has made is right. -/
def State.Inv (s : State) : Prop := s.params.wf = true ∧ ∀ e ∈ s.served, e.right s.params

/-- A state from which the block never stops: every line of every stimulus to come is driven. -/
def State.Safe (s : State) : Prop := ∀ st ∈ s.pending, Stimulus.driven st = true

/-- The state after an `EncodeF32ToF16` request with operand `x` has been answered `r`: `enc_in` shows the operand (R37), the answer is
recorded (R93), and nothing else has changed (`dec_in` and the request lines by log entry 11). -/
def State.encodeAnswered (s : State) (x : F32) (r : BitVec 32) : State :=
  { s with encIn := Lines.known x, served := s.served ++ [.request (.encodeF32ToF16 x) r] }

/-- The state after a `DecodeF16ToF32` request with operand bus `{ignored, h}` has been answered `r`: `dec_in` shows the operand (R37),
the answer is recorded (R93), and nothing else has changed (`enc_in` and the request lines by log entry 11). -/
def State.decodeAnswered (s : State) (ignored : BitVec 16) (h : F16) (r : BitVec 32) : State :=
  { s with decIn := Lines.known h, served := s.served ++ [.request (.decodeF16ToF32 ignored h) r] }

end Sys2Proof.Machine
end

