-- ==== Sys2Proof/Certificates/Slice0/Obligations.lean ====
section
/-! DEFINITION. The statements for the provers. Each docstring names the rule of the spec it formalises.

Unless a statement says otherwise it holds of every state, whatever its ports show, whatever was asked or answered before. The
parameters of R7 stand in the state, so a statement over states is a statement over every value of them; `Params.wf` says they
are in the ranges of R7.

Where a statement gives a whole next state (`State.encodeAnswered`, `State.decodeAnswered`, or `s` with some fields changed), the rule it names
gives the result. That the ports not driven, and the request lines, still show what they showed before is no rule of the spec but the model's
choice (log entry 11). -/

open Sys2Proof Sys2Proof.Machine

-- ==== Requests: words, rows, fetching ====

/-- Words written out from R37 to R40 decode to the request they stand for: `op` at bit 32, `x = a[31:0]`, `h = a[15:0]`. -/
def Obligations.WrittenWordsDecode : Prop :=
  decode 0x03F800000 = .encodeF32ToF16 0x3F800000 ∧ decode 0x0C7800000 = .encodeF32ToF16 0xC7800000 ∧
  decode 0x100003C00 = .decodeF16ToF32 0 0x3C00 ∧ decode 0x1DEAD3C00 = .decodeF16ToF32 0xDEAD 0x3C00

/-- R37, R38: decoding the request word of an instruction gives the instruction back, with every operand at every value. -/
def Obligations.DecodeOfEncodeIsTheInstruction : Prop :=
  ∀ i : Instr, decode (encode i) = i

/-- R37, R38, R44: encoding the instruction decoded from a request word gives the word back, so that no bit of it is lost. -/
def Obligations.EncodeOfDecodeIsTheWord : Prop :=
  ∀ w : Request, encode (decode w) = w

/-- R38, R43, R44: every request word stands in exactly one row of the opcode table, the row of the instruction it decodes to; and a
number is a request word exactly when it has no bit at position 33 or above. That any other number is rejected, and by what name, is the
model's reading of the one length of R44 and no rule of the spec (log entry 8, DEDUCED). -/
def Obligations.EveryWordStandsInExactlyOneRow : Prop :=
  (∀ w : Request, opcodeTable.filter (fun row => row.covers w) = [rowOf (decode w)]) ∧
  (∀ n : Nat, (∃ i, decodeWord n = .ok i ∧ (encode i).toNat = n) ↔ n < 2 ^ 33) ∧
  (∀ n : Nat, 2 ^ 33 ≤ n → decodeWord n = .error .widerThanARequest)

/-- R37, R93: a step at a request runs the decoded instruction, in the state where the request has been taken from the caller's plans and
stands on the request lines. -/
def Obligations.StepRunsTheDecodedRequest : Prop :=
  ∀ (s : State) (w : Request) (rest : List Stimulus), s.pending = .request (Lines.known w) :: rest →
    step s = exec (decode w) { s with pending := rest, req := Lines.known w }

/-- Log entry 7: a table word placed by `withFetchWord` is decoded as the decoder reads it and run by the very next step; a number that is
no request word is refused (log entry 8). Both are the model's. -/
def Obligations.PlacedTableWordRunsNext : Prop :=
  ∀ (s : State) (nbits w : Nat),
    (∀ i, decodeTableWord nbits w = some i →
      step (s.withFetchWord nbits w) = exec i { s with req := Lines.known (encode i) }) ∧
    (decodeTableWord nbits w = none → step (s.withFetchWord nbits w) = .refused (.undrivenInput .req))

-- ==== The encoder ====

/-- R58: `EncodeF32ToF16` answers on every operand in every state, with `Encode(x)` in `r[15:0]` and 0 above (R41). That
only `enc_in` and the record of answers change, so that `dec_in` and the request lines keep their levels, is the model's choice (log entry
11), not R58's. -/
def Obligations.EncodeAnswersEveryOperand : Prop :=
  ∀ (s : State) (x : F32),
    exec (.encodeF32ToF16 x) s = .next (s.encodeAnswered x ((codecEncode s.params x).zeroExtend 32))

/-- R59: a binary32 NaN gives `(s << 15) | 0x7FFF`. The rule gives the result;
that `dec_in` and the request lines keep their levels in the next state is the model's choice (log entry 11). -/
def Obligations.EncodeOfNanIsCanonicalNan : Prop :=
  ∀ (s : State) (x : F32), exp32 x = 255 → frac32 x ≠ 0 →
    exec (.encodeF32ToF16 x) s = .next (s.encodeAnswered x (BitVec.ofNat 32 (sign32 x <<< 15 ||| 0x7FFF)))

/-- R60: a binary32 infinity gives `(s << 15) | 0x7C00`; so +∞ gives `0x7C00` and −∞ gives `0xFC00`. The rule gives the result;
that `dec_in` and the request lines keep their levels in the next state is the model's choice (log entry 11). -/
def Obligations.EncodeOfInfinityIsInfinity : Prop :=
  (∀ (s : State) (x : F32), exp32 x = 255 → frac32 x = 0 →
    exec (.encodeF32ToF16 x) s = .next (s.encodeAnswered x (BitVec.ofNat 32 (sign32 x <<< 15 ||| 0x7C00)))) ∧
  (∀ s : State, exec (.encodeF32ToF16 0x7F800000) s = .next (s.encodeAnswered 0x7F800000 0x7C00) ∧
    exec (.encodeF32ToF16 0xFF800000) s = .next (s.encodeAnswered 0xFF800000 0xFC00))

/-- R61: a finite operand above `P_OVF_LIMIT` gives `(s << 15) | 0x7FFF`, a binary16 NaN; at the spec value of the parameter that is
every finite operand with |x| ≥ 65536. The rule gives the result;
that `dec_in` and the request lines keep their levels in the next state is the model's choice (log entry 11). -/
def Obligations.EncodeClampsOverflowToNanPattern : Prop :=
  (∀ (s : State) (x : F32), exp32 x ≠ 255 → s.params.ovfLimit.toNat < mag32 x →
    exec (.encodeF32ToF16 x) s = .next (s.encodeAnswered x (BitVec.ofNat 32 (sign32 x <<< 15 ||| 0x7FFF)))) ∧
  (∀ (s : State) (x : F32) (a : ℚ), s.params.ovfLimit = 0x477FFFFF → (val32 x).abs = some (a : WithTop ℚ) →
    ((65536 ≤ a → exec (.encodeF32ToF16 x) s = .next (s.encodeAnswered x (BitVec.ofNat 32 (sign32 x <<< 15 ||| 0x7FFF)))) ∧
     (65536 ≤ a ↔ s.params.ovfLimit.toNat < mag32 x))) ∧
  (∀ sgn : Nat, sgn < 2 → class16 (BitVec.ofNat 16 (sgn <<< 15 ||| 0x7FFF)) = .nan)

/-- R62: an operand below 2^−14 has `E ≤ 112` and gives `(s << 15) | ((M >> sh) >> 13)` with `sh = 113 − E` and the implicit 1 in `M`.
The shifted value fits in 23 bits. No bit survives exactly when `E ≤ 102`, that is |x| < 2^−24; otherwise the fraction is from
`0x0001` to `0x03FF`. The bounds are also stated as values. The rule gives the result;
that `dec_in` and the request lines keep their levels in the next state is the model's choice (log entry 11). -/
def Obligations.EncodeUnderflowShiftsTheSignificand : Prop :=
  ∀ (s : State) (x : F32), s.params.wf = true → mag32 x < 0x38800000 →
    exec (.encodeF32ToF16 x) s =
      .next (s.encodeAnswered x
        (BitVec.ofNat 32 (sign32 x <<< 15 ||| ((0x00800000 ||| frac32 x) >>> (113 - exp32 x)) >>> 13))) ∧
    exp32 x ≤ 112 ∧
    (0x00800000 ||| frac32 x) >>> (113 - exp32 x) < 2 ^ 23 ∧
    (exp32 x ≤ 102 → ((0x00800000 ||| frac32 x) >>> (113 - exp32 x)) >>> 13 = 0) ∧
    (103 ≤ exp32 x → 1 ≤ ((0x00800000 ||| frac32 x) >>> (113 - exp32 x)) >>> 13 ∧
      ((0x00800000 ||| frac32 x) >>> (113 - exp32 x)) >>> 13 ≤ 0x03FF) ∧
    (∃ a : ℚ, (val32 x).abs = some (a : WithTop ℚ) ∧ a < 2 ^ (-14 : ℤ) ∧ (a < 2 ^ (-24 : ℤ) ↔ exp32 x ≤ 102))

/-- R63: an operand from 2^−14 up to `P_OVF_LIMIT` gives `(s << 15) | ((mag − 0x38000000) >> 13)`, which is at most `0x7BFF` in its
magnitude: the exponent field `E − 112`, from 1 to 30, over the top 10 bits of `F`. The rule gives the result;
that `dec_in` and the request lines keep their levels in the next state is the model's choice (log entry 11). -/
def Obligations.EncodeNormalRangeRebiasesAndTruncates : Prop :=
  ∀ (s : State) (x : F32), s.params.wf = true → 0x38800000 ≤ mag32 x → mag32 x ≤ s.params.ovfLimit.toNat →
    exec (.encodeF32ToF16 x) s =
      .next (s.encodeAnswered x (BitVec.ofNat 32 (sign32 x <<< 15 ||| (mag32 x - 0x38000000) >>> 13))) ∧
    (mag32 x - 0x38000000) >>> 13 ≤ 0x7BFF ∧
    exp16 (codecEncode s.params x) = exp32 x - 112 ∧ 113 ≤ exp32 x ∧ exp32 x ≤ 142 ∧
    frac16 (codecEncode s.params x) = frac32 x / 2 ^ 13 ∧ class16 (codecEncode s.params x) = .normal

-- ==== The decoder ====

/-- R66: `DecodeF16ToF32` answers on every operand in every state, with `Decode(h)` as the whole of `r` (R41). That only
`dec_in` and the record of answers change, so that `enc_in` and the request lines keep their levels, is the model's choice (log entry 11), not
R66's. -/
def Obligations.DecodeAnswersEveryOperand : Prop :=
  ∀ (s : State) (ignored : BitVec 16) (h : F16),
    exec (.decodeF16ToF32 ignored h) s = .next (s.decodeAnswered ignored h (codecDecode s.params h))

/-- R67: a binary16 infinity gives the binary32 infinity of its sign; `0x7C00` gives +∞ and `0xFC00` gives −∞. The rule gives the result;
that `enc_in` and the request lines keep their levels in the next state is the model's choice (log entry 11). -/
def Obligations.DecodeOfInfinityIsInfinity : Prop :=
  (∀ (s : State) (g : BitVec 16) (h : F16), exp16 h = 31 → frac16 h = 0 →
    exec (.decodeF16ToF32 g h) s = .next (s.decodeAnswered g h (BitVec.ofNat 32 (sign16 h <<< 31 ||| 0x7F800000)))) ∧
  (∀ (s : State) (g : BitVec 16), exec (.decodeF16ToF32 g 0x7C00) s = .next (s.decodeAnswered g 0x7C00 0x7F800000) ∧
    exec (.decodeF16ToF32 g 0xFC00) s = .next (s.decodeAnswered g 0xFC00 0xFF800000))

/-- R68: a binary16 NaN gives `(s << 31) | P_DEC_NAN`: a binary32 NaN for every value of the parameter in its range, and `0x7FC00000` or
`0xFFC00000` at its spec value. The rule gives the result;
that `enc_in` and the request lines keep their levels in the next state is the model's choice (log entry 11). -/
def Obligations.DecodeOfNanIsTheParameterNan : Prop :=
  (∀ (s : State) (g : BitVec 16) (h : F16), exp16 h = 31 → frac16 h ≠ 0 →
    exec (.decodeF16ToF32 g h) s =
      .next (s.decodeAnswered g h (BitVec.ofNat 32 (sign16 h <<< 31 ||| s.params.decNan.toNat)))) ∧
  (∀ (p : Params) (h : F16), p.wf = true → exp16 h = 31 → frac16 h ≠ 0 → class32 (codecDecode p h) = .nan) ∧
  (∀ (p : Params) (h : F16), p.decNan = 0x7FC00000 → exp16 h = 31 → frac16 h ≠ 0 →
    codecDecode p h = if sign16 h = 0 then 0x7FC00000 else 0xFFC00000)

/-- R69: with exponent field 0, a zero gives `s << 31`; any other fraction `m`, with its highest 1 bit at `q`, gives
`(s << 31) | ((103 + q) << 23) | ((m << (23 − q)) & 0x007FFFFF)`, a binary32 normal with exponent field 103 to 112 whose value is exactly
`m × 2^−24` with the sign. The rule gives the result;
that `enc_in` and the request lines keep their levels in the next state is the model's choice (log entry 11). -/
def Obligations.DecodeOfZeroOrSubnormalIsExact : Prop :=
  (∀ (s : State) (g : BitVec 16) (h : F16), exp16 h = 0 → frac16 h = 0 →
    exec (.decodeF16ToF32 g h) s = .next (s.decodeAnswered g h (BitVec.ofNat 32 (sign16 h <<< 31)))) ∧
  (∀ (s : State) (g : BitVec 16) (h : F16) (q : Nat), exp16 h = 0 →
    (frac16 h).testBit q = true → (∀ j, q < j → (frac16 h).testBit j = false) →
    q ≤ 9 ∧
    exec (.decodeF16ToF32 g h) s = .next (s.decodeAnswered g h
      (BitVec.ofNat 32 (sign16 h <<< 31 ||| (103 + q) <<< 23 ||| (frac16 h <<< (23 - q)) &&& 0x007FFFFF))) ∧
    exp32 (codecDecode s.params h) = 103 + q ∧
    val32 (codecDecode s.params h) = .finite ((-1) ^ sign16 h * frac16 h * 2 ^ (-24 : ℤ)))

/-- R70: a binary16 normal gives `(s << 31) | ((e + 112) << 23) | (m << 13)`: the exponent field is from 113 to 142 and the low 13 fraction
bits are 0. The rule gives the result;
that `enc_in` and the request lines keep their levels in the next state is the model's choice (log entry 11). -/
def Obligations.DecodeOfNormalRebiasesAndShifts : Prop :=
  ∀ (s : State) (g : BitVec 16) (h : F16), 1 ≤ exp16 h → exp16 h ≤ 30 →
    exec (.decodeF16ToF32 g h) s = .next (s.decodeAnswered g h
      (BitVec.ofNat 32 (sign16 h <<< 31 ||| (exp16 h + 112) <<< 23 ||| frac16 h <<< 13))) ∧
    exp32 (codecDecode s.params h) = exp16 h + 112 ∧ 113 ≤ exp16 h + 112 ∧ exp16 h + 112 ≤ 142 ∧
    frac32 (codecDecode s.params h) / 2 ^ 13 = frac16 h ∧ frac32 (codecDecode s.params h) % 2 ^ 13 = 0

-- ==== Both units: layout, categories, values ====

/-- R49, R50: each category holds under exactly the field condition the rule gives, in both widths, so that every pattern is in exactly one;
and flipping the sign bit does not change it. -/
def Obligations.CategoriesAreTheFieldConditions : Prop :=
  (∀ x : F32,
    (class32 x = .zero ↔ exp32 x = 0 ∧ frac32 x = 0) ∧ (class32 x = .subnormal ↔ exp32 x = 0 ∧ frac32 x ≠ 0) ∧
    (class32 x = .normal ↔ 1 ≤ exp32 x ∧ exp32 x ≤ 254) ∧ (class32 x = .infinity ↔ exp32 x = 255 ∧ frac32 x = 0) ∧
    (class32 x = .nan ↔ exp32 x = 255 ∧ frac32 x ≠ 0) ∧ class32 (x ^^^ 0x80000000) = class32 x) ∧
  (∀ h : F16,
    (class16 h = .zero ↔ exp16 h = 0 ∧ frac16 h = 0) ∧ (class16 h = .subnormal ↔ exp16 h = 0 ∧ frac16 h ≠ 0) ∧
    (class16 h = .normal ↔ 1 ≤ exp16 h ∧ exp16 h ≤ 30) ∧ (class16 h = .infinity ↔ exp16 h = 31 ∧ frac16 h = 0) ∧
    (class16 h = .nan ↔ exp16 h = 31 ∧ frac16 h ≠ 0) ∧ class16 (h ^^^ 0x8000) = class16 h)

/-- R51: the extreme values the rule names: the smallest binary16 subnormal 2^−24, the largest binary16 normal 65504, the smallest binary32
normal 2^−126; and the zeros of the two signs are told apart. -/
def Obligations.NamedExtremeValues : Prop :=
  val16 0x0001 = .finite (2 ^ (-24 : ℤ)) ∧ val16 0x7BFF = .finite 65504 ∧ val16 0xFBFF = .finite (-65504) ∧
  val32 0x00800000 = .finite (2 ^ (-126 : ℤ)) ∧ val32 0x00000000 = .zero false ∧ val32 0x80000000 = .zero true

/-- R52: for patterns that are not NaN, comparing magnitudes as unsigned integers is comparing absolute values, in both widths. -/
def Obligations.MagnitudeOrderIsValueOrder : Prop :=
  (∀ (x y : F32) (a b : WithTop ℚ), (val32 x).abs = some a → (val32 y).abs = some b →
    ((mag32 x ≤ mag32 y ↔ a ≤ b) ∧ (mag32 x = mag32 y ↔ a = b))) ∧
  (∀ (g h : F16) (a b : WithTop ℚ), (val16 g).abs = some a → (val16 h).abs = some b →
    ((mag16 g ≤ mag16 h ↔ a ≤ b) ∧ (mag16 g = mag16 h ↔ a = b)))

/-- R53: with the parameter in its range the five regions are disjoint and cover everything, each under its own test (the overflow test is
read on finite operands, R61; log entry 13); and in binary32 terms they are the ranges of `E` the rule lists. -/
def Obligations.RegionsAreDisjointAndCoverAll : Prop :=
  ∀ (p : Params) (x : F32), p.wf = true →
    (region p x = .nan ↔ exp32 x = 255 ∧ frac32 x ≠ 0) ∧
    (region p x = .inf ↔ exp32 x = 255 ∧ frac32 x = 0) ∧
    (region p x = .overflow ↔ exp32 x ≠ 255 ∧ p.ovfLimit.toNat < mag32 x) ∧
    (region p x = .underflow ↔ mag32 x < 0x38800000) ∧
    (region p x = .normalRange ↔ 0x38800000 ≤ mag32 x ∧ mag32 x ≤ p.ovfLimit.toNat) ∧
    (region p x = .underflow ↔ exp32 x ≤ 112) ∧
    (p.ovfLimit = 0x477FFFFF → (region p x = .normalRange ↔ 113 ≤ exp32 x ∧ exp32 x ≤ 142) ∧
      (region p x = .overflow ↔ 143 ≤ exp32 x ∧ exp32 x ≤ 254))

/-- R56: each unit has one NaN per sign, whatever the payload of its operand: `(s << 15) | 0x7FFF` and `(s << 31) | P_DEC_NAN`; both are
quiet, the decoder's at the spec value of its parameter, where it is `0x7FC00000` or `0xFFC00000`. -/
def Obligations.NanPayloadNeverReachesTheResult : Prop :=
  (∀ (p : Params) (x : F32), class32 x = .nan →
    codecEncode p x = BitVec.ofNat 16 (sign32 x <<< 15 ||| 0x7FFF) ∧
    codecEncode p x = (if sign32 x = 0 then 0x7FFF else 0xFFFF) ∧ (frac16 (codecEncode p x)).testBit 9 = true) ∧
  (∀ (p : Params) (h : F16), class16 h = .nan →
    codecDecode p h = BitVec.ofNat 32 (sign16 h <<< 31 ||| p.decNan.toNat) ∧
    (p.decNan = 0x7FC00000 → codecDecode p h = (if sign16 h = 0 then 0x7FC00000 else 0xFFC00000) ∧
      (frac32 (codecDecode p h)).testBit 22 = true))

/-- R13 (Canonical NaN; conflict C6), R56: each unit's canonical NaN is a NaN that is fixed except for its sign bit. The results for any two NaN
operands have one magnitude, and are one pattern exactly when the operands have one sign; so each unit has two. -/
def Obligations.CanonicalNanIsFixedExceptForItsSign : Prop :=
  (∀ (p : Params) (x y : F32), class32 x = .nan → class32 y = .nan →
    codecEncode p x = canonicalNan16 (sign32 x) ∧ class16 (canonicalNan16 (sign32 x)) = .nan ∧
    mag16 (codecEncode p x) = mag16 (codecEncode p y) ∧ (codecEncode p x = codecEncode p y ↔ sign32 x = sign32 y)) ∧
  (∀ (p : Params) (g h : F16), p.wf = true → class16 g = .nan → class16 h = .nan →
    codecDecode p g = canonicalNan32 p (sign16 g) ∧ class32 (canonicalNan32 p (sign16 g)) = .nan ∧
    mag32 (codecDecode p g) = mag32 (codecDecode p h) ∧ (codecDecode p g = codecDecode p h ↔ sign16 g = sign16 h))

/-- R57: the sign bit of a result is the sign bit of the operand, on every path of both units. -/
def Obligations.SignPassesThrough : Prop :=
  (∀ (p : Params) (x : F32), p.wf = true → sign16 (codecEncode p x) = sign32 x) ∧
  (∀ (p : Params) (h : F16), sign32 (codecDecode p h) = sign16 h)

-- ==== Laws of the conversions ====

/-- R64: an operand that is neither NaN nor infinite nor above `P_OVF_LIMIT` encodes to the pattern of its sign with the largest magnitude
not above its own; below 2^−14 that is the floor in units of 2^−24, below 2^−24 it is 0, and in the normal range the exponent and the top 10
fraction bits are kept. -/
def Obligations.EncodeIsTruncation : Prop :=
  ∀ (p : Params) (x : F32), p.wf = true → class32 x ≠ .nan → class32 x ≠ .infinity → mag32 x ≤ p.ovfLimit.toNat →
    ∃ a b : ℚ, (val32 x).abs = some (a : WithTop ℚ) ∧ (val16 (codecEncode p x)).abs = some (b : WithTop ℚ) ∧
      sign16 (codecEncode p x) = sign32 x ∧ b ≤ a ∧
      (∀ (h : F16) (c : ℚ), (val16 h).abs = some (c : WithTop ℚ) → c ≤ a → c ≤ b) ∧
      (mag32 x < 0x38800000 → b = (⌊a * 2 ^ 24⌋ : ℚ) * 2 ^ (-24 : ℤ)) ∧
      (a < 2 ^ (-24 : ℤ) → b = 0) ∧
      (0x38800000 ≤ mag32 x → exp16 (codecEncode p x) + 112 = exp32 x ∧ frac16 (codecEncode p x) = frac32 x / 2 ^ 13)

/-- R54, R64, R52: among operands that do not overflow, a larger magnitude never encodes to a smaller one. -/
def Obligations.EncodeIsMonotone : Prop :=
  ∀ (p : Params) (x y : F32), p.wf = true → mag32 x ≤ mag32 y → mag32 y ≤ p.ovfLimit.toNat →
    mag16 (codecEncode p x) ≤ mag16 (codecEncode p y)

/-- R65: the encoder never produces `0x7C01 ..= 0x7FFE` or `0xFC01 ..= 0xFFFE`; its only results with an all-ones exponent are the two
infinities and the two NaN patterns; every other result is a zero, a subnormal or a normal; and a NaN and a finite overflow of one sign
give one result. -/
def Obligations.EncodeOutputSet : Prop :=
  ∀ (p : Params) (x : F32), p.wf = true →
    ¬ (0x7C01 ≤ (codecEncode p x).toNat ∧ (codecEncode p x).toNat ≤ 0x7FFE) ∧
    ¬ (0xFC01 ≤ (codecEncode p x).toNat ∧ (codecEncode p x).toNat ≤ 0xFFFE) ∧
    (exp16 (codecEncode p x) = 31 → codecEncode p x ∈ [0x7C00#16, 0xFC00#16, 0x7FFF#16, 0xFFFF#16]) ∧
    (codecEncode p x ∉ [0x7C00#16, 0xFC00#16, 0x7FFF#16, 0xFFFF#16] →
      class16 (codecEncode p x) ∈ [Category.zero, Category.subnormal, Category.normal]) ∧
    (∀ y : F32, region p x = .nan → region p y = .overflow → sign32 x = sign32 y → codecEncode p x = codecEncode p y)

/-- R7, R61 and row U1 of the spec's open points: outside the band `0x477FE001 ..= 0x477FFFFF` the encoder's result does not depend on
`P_OVF_LIMIT`, and inside it the result is `0x7BFF` or `0x7FFF` with the sign, by the parameter; the decoder's result depends on
`P_DEC_NAN` only for a NaN operand. -/
def Obligations.ParametersMatterOnlyWhereOpen : Prop :=
  (∀ (p q : Params) (x : F32), p.wf = true → q.wf = true → ¬ (0x477FE001 ≤ mag32 x ∧ mag32 x ≤ 0x477FFFFF) →
    codecEncode p x = codecEncode q x) ∧
  (∀ (p : Params) (x : F32), p.wf = true → 0x477FE001 ≤ mag32 x → mag32 x ≤ 0x477FFFFF →
    mag16 (codecEncode p x) = if mag32 x ≤ p.ovfLimit.toNat then 0x7BFF else 0x7FFF) ∧
  (∀ (p q : Params) (h : F16), class16 h ≠ .nan → codecDecode p h = codecDecode q h)

/-- R71: decoding changes no value: `val32(Decode(h)) = val16(h)` for every `h` that is not NaN, the sign of zero kept. -/
def Obligations.DecodeIsExact : Prop :=
  ∀ (p : Params) (h : F16), class16 h ≠ .nan → val32 (codecDecode p h) = val16 h

/-- R72: the decoder never produces a binary32 subnormal; the exponent field of its result is 0 (for a zero), 103 to 142, or 255, the last
only for the two infinities and the two NaN results of R68. -/
def Obligations.DecodeOutputSet : Prop :=
  ∀ (p : Params) (h : F16), p.wf = true →
    class32 (codecDecode p h) ≠ .subnormal ∧
    (exp32 (codecDecode p h) = 0 → codecDecode p h = 0x00000000 ∨ codecDecode p h = 0x80000000) ∧
    (exp32 (codecDecode p h) = 0 ∨ (103 ≤ exp32 (codecDecode p h) ∧ exp32 (codecDecode p h) ≤ 142) ∨
      exp32 (codecDecode p h) = 255) ∧
    (exp32 (codecDecode p h) = 255 → codecDecode p h ∈
      [0x7F800000#32, 0xFF800000#32, BitVec.ofNat 32 p.decNan.toNat, BitVec.ofNat 32 (1 <<< 31 ||| p.decNan.toNat)])

/-- R73: encoding what was decoded gives a pattern that is not NaN back, for every `P_OVF_LIMIT` in range; for the NaN `0x7C01` it gives
`0x7FFF`. -/
def Obligations.RoundTripLaw : Prop :=
  (∀ (p : Params) (h : F16), p.wf = true → class16 h ≠ .nan → codecEncode p (codecDecode p h) = h) ∧
  (∀ p : Params, p.wf = true → codecEncode p (codecDecode p 0x7C01) = 0x7FFF)

/-- R73, R37: the round trip through two requests: the answer to encoding the decoder's answer is the operand the decoder was given. The state
between them keeps the levels of `enc_in` and the request lines by log entry 11. -/
def Obligations.RoundTripThroughRequests : Prop :=
  ∀ (s : State) (g : BitVec 16) (h : F16), s.params.wf = true → class16 h ≠ .nan →
    ∃ (x : F32) (t : State), exec (.decodeF16ToF32 g h) s = .next (s.decodeAnswered g h x) ∧
      exec (.encodeF32ToF16 x) (s.decodeAnswered g h x) = .next t ∧
      t.served = s.served ++ [.request (.decodeF16ToF32 g h) x, .request (.encodeF32ToF16 x) (h.zeroExtend 32)]

/-- R95, over the pseudocode of R58 and R66: on each path of both conversions the exact integer of the pseudocode, `(s << 15) | v` or
`(s << 31) | v`, is the result as a number, so that nothing wraps and packing it into 16 or 32 bits drops no bit; no subtraction goes below
zero; each intermediate stays in the range the rule gives; and masking `m << (23 − q)` to 23 bits takes away its leading 1 and nothing else, so
that the subnormal product is exact. -/
def Obligations.DatapathStaysInRange : Prop :=
  (∀ (p : Params) (x : F32), p.wf = true →
    (exp32 x = 255 → frac32 x ≠ 0 → (codecEncode p x).toNat = sign32 x <<< 15 ||| 0x7FFF) ∧
    (exp32 x = 255 → frac32 x = 0 → (codecEncode p x).toNat = sign32 x <<< 15 ||| 0x7C00) ∧
    (exp32 x ≠ 255 → p.ovfLimit.toNat < mag32 x → (codecEncode p x).toNat = sign32 x <<< 15 ||| 0x7FFF) ∧
    (mag32 x < 0x38800000 →
      exp32 x ≤ 112 ∧ 1 ≤ 113 - exp32 x ∧ 113 - exp32 x ≤ 113 ∧ 14 ≤ 113 - exp32 x + 13 ∧ 113 - exp32 x + 13 ≤ 126 ∧
      (codecEncode p x).toNat = sign32 x <<< 15 ||| (0x00800000 ||| frac32 x) >>> (113 - exp32 x + 13) ∧
      (11 ≤ 113 - exp32 x → (codecEncode p x).toNat = sign32 x <<< 15)) ∧
    (0x38800000 ≤ mag32 x → mag32 x ≤ p.ovfLimit.toNat →
      0x00800000 ≤ mag32 x - 0x38000000 ∧ (mag32 x - 0x38000000) >>> 13 ≤ 0x7BFF ∧
      (codecEncode p x).toNat = sign32 x <<< 15 ||| (mag32 x - 0x38000000) >>> 13)) ∧
  (∀ (p : Params) (h : F16),
    (exp16 h = 31 → frac16 h = 0 → (codecDecode p h).toNat = sign16 h <<< 31 ||| 0x7F800000) ∧
    (exp16 h = 31 → frac16 h ≠ 0 → (codecDecode p h).toNat = sign16 h <<< 31 ||| p.decNan.toNat) ∧
    (exp16 h = 0 → frac16 h = 0 → (codecDecode p h).toNat = sign16 h <<< 31) ∧
    (exp16 h = 0 → frac16 h ≠ 0 → ∃ q, q ≤ 9 ∧ (frac16 h).testBit q = true ∧ (∀ j, q < j → (frac16 h).testBit j = false) ∧
      103 ≤ 103 + q ∧ 103 + q ≤ 112 ∧
      (frac16 h <<< (23 - q)) &&& 0x007FFFFF < 2 ^ 23 ∧
      frac16 h <<< (23 - q) = 2 ^ 23 + ((frac16 h <<< (23 - q)) &&& 0x007FFFFF) ∧
      (codecDecode p h).toNat = sign16 h <<< 31 ||| (103 + q) <<< 23 ||| (frac16 h <<< (23 - q)) &&& 0x007FFFFF ∧
      val32 (codecDecode p h) = .finite ((-1) ^ sign16 h * frac16 h * 2 ^ (-24 : ℤ))) ∧
    (1 ≤ exp16 h → exp16 h ≤ 30 →
      113 ≤ exp16 h + 112 ∧ exp16 h + 112 ≤ 142 ∧ frac16 h <<< 13 < 2 ^ 23 ∧
      (codecDecode p h).toNat = sign16 h <<< 31 ||| (exp16 h + 112) <<< 23 ||| frac16 h <<< 13))

-- ==== The request form and the ports ====

/-- R37, R41: a request drives exactly one unit with its operand; its result is that unit's output, assembled by R41, and is what the request
lines show as `r`. That the other unit's port then shows what it showed before is the model's choice (log entry 11: a port keeps its levels
until the caller drives it again), not R37's. -/
def Obligations.RequestDrivesExactlyOneUnit : Prop :=
  ∀ (s : State) (w : Request) (rest : List Stimulus), s.pending = .request (Lines.known w) :: rest →
    ∃ (t : State) (r : BitVec 32), step s = .next t ∧ t.r = some r ∧ t.served = s.served ++ [.request (decode w) r] ∧
      t.pending = rest ∧ t.params = s.params ∧ t.req = Lines.known w ∧
      (w.getLsbD 32 = false → t.encIn = Lines.known (w.extractLsb' 0 32) ∧ t.encOut.map (fun o => o.zeroExtend 32) = some r ∧
        t.decIn = s.decIn ∧ t.decOut = s.decOut) ∧
      (w.getLsbD 32 = true → t.decIn = Lines.known (w.extractLsb' 0 16) ∧ t.decOut = some r ∧
        t.encIn = s.encIn ∧ t.encOut = s.encOut)

/-- R40: `a[31:16]` of a decoder request never changes `r`. -/
def Obligations.IgnoredBitsNeverMatter : Prop :=
  ∀ (p : Params) (v w : Request), v.getLsbD 32 = true → w.getLsbD 32 = true →
    v.extractLsb' 0 16 = w.extractLsb' 0 16 → respond p (decode v) = respond p (decode w)

/-- R41: for `op = 0` the encoder's result is `r[15:0]` and `r[31:16]` is 0; for `op = 1` the decoder's result is `r`. -/
def Obligations.ResultAssembly : Prop :=
  ∀ (s : State) (i : Instr), ∃ (t : State) (r : BitVec 32), exec i s = .next t ∧ t.served = s.served ++ [.request i r] ∧
    (∀ x, i = .encodeF32ToF16 x → r.extractLsb' 0 16 = codecEncode s.params x ∧ r.extractLsb' 16 16 = 0) ∧
    (∀ g h, i = .decodeF16ToF32 g h → r = codecDecode s.params h)

/-- R35, R8, R21: what an instruction leaves alone: the parameters, the request lines, the caller's plans and every earlier answer. The clauses
on the port of the unit it does not drive rest on the model's choice that a port keeps its levels until it is driven again (log entry
11). -/
def Obligations.InstructionFrame : Prop :=
  ∀ (i : Instr) (s : State), ∃ t, exec i s = .next t ∧ t.params = s.params ∧ t.req = s.req ∧ t.pending = s.pending ∧
    s.served <+: t.served ∧ t.served.length = s.served.length + 1 ∧
    (∀ x, i = .encodeF32ToF16 x → t.encIn = Lines.known x ∧ t.decIn = s.decIn ∧ t.decOut = s.decOut) ∧
    (∀ g h, i = .decodeF16ToF32 g h → t.decIn = Lines.known h ∧ t.encIn = s.encIn ∧ t.encOut = s.encOut)

/-- R89: at every moment `enc_out = Encode(enc_in)` and `dec_out = Decode(dec_in)`, in every state, the one after power-up with operands on
its ports among them. -/
def Obligations.OutputsFollowInputsAtEveryMoment : Prop :=
  (∀ (s : State) (x : F32), s.encIn = Lines.known x → s.encOut = some (codecEncode s.params x)) ∧
  (∀ (s : State) (h : F16), s.decIn = Lines.known h → s.decOut = some (codecDecode s.params h)) ∧
  (∀ (x : F32) (h : F16), State.encOut { State.reset with encIn := Lines.known x } = some (codecEncode State.reset.params x) ∧
    State.decOut { State.reset with decIn := Lines.known h } = some (codecDecode State.reset.params h))

/-- R36, R93: an operand on a unit's own port is evaluated by that unit alone, its result on that unit's output. That nothing else changes, so
that the other port and the request lines keep their levels, is the model's choice (log entry 11). -/
def Obligations.PortOperandIsEvaluated : Prop :=
  (∀ (s : State) (x : F32) (rest : List Stimulus), s.pending = .enc (Lines.known x) :: rest →
    ∃ t, step s = .next t ∧ t.encOut = some (codecEncode s.params x) ∧
      t = { s with pending := rest, encIn := Lines.known x, served := s.served ++ [.enc x (codecEncode s.params x)] }) ∧
  (∀ (s : State) (h : F16) (rest : List Stimulus), s.pending = .dec (Lines.known h) :: rest →
    ∃ t, step s = .next t ∧ t.decOut = some (codecDecode s.params h) ∧
      t = { s with pending := rest, decIn := Lines.known h, served := s.served ++ [.dec h (codecDecode s.params h)] })

/-- R35, R85: operands on both ports in one instant give what the two evaluations give one after the other, in either order: the same ports and,
but for their order, the same answers. R85 orders nothing: that the record of the instant is the one of ENC then DEC (`t = u`) is the model's
choice (log entry 10), and that a port still shows its operand after the second stimulus is another (log entry 11). -/
def Obligations.BothUnitsAtOnceAreIndependent : Prop :=
  ∀ (s : State) (x : F32) (h : F16), ∃ t u v : State,
    step { s with pending := [.both (Lines.known x) (Lines.known h)] } = .next t ∧
    Sys2Proof.core.run 2 { s with pending := [.enc (Lines.known x), .dec (Lines.known h)] } = .next u ∧
    Sys2Proof.core.run 2 { s with pending := [.dec (Lines.known h), .enc (Lines.known x)] } = .next v ∧
    t = u ∧ v = { t with served := v.served } ∧ v.served.Perm t.served ∧
    t.encOut = some (codecEncode s.params x) ∧ t.decOut = some (codecDecode s.params h)

-- ==== Steps and runs ====

/-- The state after power-up holds nothing but the spec values of the parameters: nothing is asked or answered, and no output shows a value while
no line is driven. The empty lists and the undriven lines are the model's choice (log entry 2), and so is that the parameters stand in the
state (log entry 3). -/
def Obligations.ResetHoldsOnlyTheParameters : Prop :=
  State.reset.params.ovfLimit = 0x477FFFFF ∧ State.reset.params.decNan = 0x7FC00000 ∧
  State.reset.pending = [] ∧ State.reset.served = [] ∧
  State.reset.encOut = none ∧ State.reset.decOut = none ∧ State.reset.r = none

/-- R74, R94: a step answers exactly when every line of the stimulus it serves is driven, or nothing is asked; with an undriven line it is
refused under a name of its own; and it never faults. The model's own in this: that a step with nothing asked answers (log entry 5, DESIGN
CHOICE), and that an undriven line among the ignored operand bits refuses like any other (log entry 4, DEDUCED). -/
def Obligations.StepStopsOnlyOnUndrivenInput : Prop :=
  ∀ s : State,
    ((∃ t, step s = .next t) ↔ ∀ st ∈ s.pending.head?, st.driven = true) ∧
    ((∃ st ∈ s.pending.head?, st.driven = false) → ∃ port, step s = .refused (.undrivenInput port)) ∧
    (∀ f, step s ≠ .fault f)

/-- Log entry 5: with nothing asked, a step changes nothing. This is the model's choice. -/
def Obligations.IdleStepChangesNothing : Prop :=
  ∀ s : State, s.pending = [] → step s = .next s

/-- R8, R21, R93: a step takes at most the first of the caller's stimuli, appends to the answers and leaves the parameters as they were
built. That a step with none left answers at all is the model's choice (log entry 5). -/
def Obligations.StepConsumesAndAppends : Prop :=
  ∀ s t : State, step s = .next t →
    t.pending = s.pending.tail ∧ s.served <+: t.served ∧ t.params = s.params ∧
    (∀ l, s.pending.head? = some (.request l) → t.served.length = s.served.length + 1)

/-- R23, R93: what a step answers depends on the stimulus it serves and on nothing else: two states that share the parameters and the next
stimulus, whatever else they hold, answer alike. -/
def Obligations.AnswersDependOnTheOperandAlone : Prop :=
  ∀ (s s' : State) (st : Stimulus) (rest rest' : List Stimulus), s.params = s'.params →
    s.pending = st :: rest → s'.pending = st :: rest' →
    (∃ (t t' : State) (l : List Evaluation), step s = .next t ∧ step s' = .next t' ∧
      t.served = s.served ++ l ∧ t'.served = s'.served ++ l) ∨
    (∃ r, step s = .refused r ∧ step s' = .refused r)

/-- R28: repeating an evaluation gives the same answer again and changes nothing else. That the ports it does not drive
keep their levels is the model's choice (log entry 11). -/
def Obligations.RepeatedEvaluationAnswersAlike : Prop :=
  ∀ (s : State) (st : Stimulus) (rest : List Stimulus), s.pending = st :: st :: rest → st.driven = true →
    ∃ (t u : State) (l : List Evaluation), step s = .next t ∧ step t = .next u ∧
      t.served = s.served ++ l ∧ u = { t with pending := rest, served := t.served ++ l }

/-- The invariant holds after power-up: the parameters are in range and no answer is wrong. The state after power-up is the model's (log entries 2
and 3). -/
def Obligations.InvariantHoldsAtReset : Prop :=
  State.reset.Inv

/-- R30, R36, R41: every step keeps the invariant: the parameters stay in the ranges of R7, and every answer in the record is `Encode` or
`Decode` of its own operand. -/
def Obligations.StepKeepsEveryAnswerRight : Prop :=
  ∀ s t : State, s.Inv → step s = .next t → t.Inv

/-- R93: from any state with every line to come driven, the run serves everything that was asked, stops nowhere, and has recorded, stimulus by
stimulus, the answers that the rules give each operand. That a stimulus on both ports is recorded with ENC first (`Stimulus.answers`) is the
model's choice (log entry 10), not R93's. -/
def Obligations.RunAnswersEverythingAsked : Prop :=
  ∀ s : State, s.Safe → ∃ t : State, Sys2Proof.core.run s.pending.length s = .next t ∧
    t.pending = [] ∧ t.params = s.params ∧ t.served = s.served ++ s.pending.flatMap (Stimulus.answers s.params)

/-- R30: the order in which a set of evaluations is asked changes no result: two runs of the same stimuli in different orders record the same
answers, but for their order. -/
def Obligations.OrderOfEvaluationsDoesNotMatter : Prop :=
  ∀ (s : State) (ps qs : List Stimulus), ps.Perm qs → (∀ st ∈ ps, st.driven = true) →
    ∃ t u : State, Sys2Proof.core.run ps.length { s with pending := ps } = .next t ∧
      Sys2Proof.core.run qs.length { s with pending := qs } = .next u ∧ t.served.Perm u.served

-- ==== The textual form ====

/-- R45: reading back the text of an encoder request gives the request; that of a decoder request gives the request with its ignored operand bits
0, whatever they were. R45's text has no place for those bits, and that they are read as 0 is the model's choice (log entry 9). -/
def Obligations.TextOfARequestReadsBack : Prop :=
  (∀ x : F32, readText (writeText (.encodeF32ToF16 x)) = .ok (.encodeF32ToF16 x)) ∧
  (∀ (g : BitVec 16) (h : F16), readText (writeText (.decodeF16ToF32 g h)) = .ok (.decodeF16ToF32 0 h))

/-- R45: `n / 10^k`, with a sign, names a pattern exactly when that pattern has the sign and exactly that magnitude; every other decimal is
refused and none is rounded. -/
def Obligations.DecimalNamesThePatternOfItsValue : Prop :=
  ∀ (negative : Bool) (n k : Nat) (x : F32),
    exactF32 negative n k = some x ↔
      sign32 x = negative.toNat ∧ (val32 x).abs = some (((n : ℚ) / 10 ^ k : ℚ) : WithTop ℚ)

/-- R45: the text of an encoder request with a decimal operand is the request for the pattern of exactly that value, or is refused as
inexact. The digits and point that make up such a decimal are the model's reading of R45 (log entry 9). -/
def Obligations.DecimalTextIsReadExactly : Prop :=
  ∀ (negative : Bool) (whole part : List (Fin 10)), whole ≠ [] → part ≠ [] →
    readText ("EncodeF32ToF16(".toList ++ (if negative then ['-'] else []) ++ whole.map (fun d => hexDigit d) ++ ['.'] ++
        part.map (fun d => hexDigit d) ++ [')']) =
      match exactF32 negative (Nat.ofDigits 10 ((whole ++ part).reverse.map (fun d => d.val))) part.length with
      | none => .error .inexactDecimal
      | some x => .ok (.encodeF32ToF16 x)

/-- R45: the operands the rule writes out itself (−0.0, the two infinities, 1.0, and 0x7C00 for the decoder), and one decimal of this statement's
own, 0.1, which binary32 does not represent exactly and which the rule's last sentence on decimals refuses. That the decoder text is read
with its ignored operand bits 0 is the model's choice (log entry 9), not R45's. -/
def Obligations.NamedTextOperands : Prop :=
  readText "EncodeF32ToF16(-0.0)".toList = .ok (.encodeF32ToF16 0x80000000) ∧
  readText "EncodeF32ToF16(+Infinity)".toList = .ok (.encodeF32ToF16 0x7F800000) ∧
  readText "EncodeF32ToF16(-Infinity)".toList = .ok (.encodeF32ToF16 0xFF800000) ∧
  readText "EncodeF32ToF16(1.0)".toList = .ok (.encodeF32ToF16 0x3F800000) ∧
  readText "DecodeF16ToF32(0x7C00)".toList = .ok (.decodeF16ToF32 0 0x7C00) ∧
  readText "EncodeF32ToF16(0.1)".toList = .error .inexactDecimal
end

