-- ==== Sys2Proof/Laws/Fields.lean ====
section
/-! SUPPORT. The fields of a pattern as arithmetic, their bounds, and the fields of a packed pattern. -/

namespace Sys2Proof.Machine

theorem sign32_eq (x : F32) : sign32 x = x.toNat / 2 ^ 31 := by
  have := x.isLt
  simp [sign32, BitVec.extractLsb'_toNat, Nat.shiftRight_eq_div_pow]; omega

theorem exp32_eq (x : F32) : exp32 x = x.toNat / 2 ^ 23 % 2 ^ 8 := by
  simp [exp32, BitVec.extractLsb'_toNat, Nat.shiftRight_eq_div_pow]

theorem frac32_eq (x : F32) : frac32 x = x.toNat % 2 ^ 23 := by
  simp [frac32, BitVec.extractLsb'_toNat]

theorem mag32_eq (x : F32) : mag32 x = x.toNat % 2 ^ 31 := by
  simp [mag32, BitVec.extractLsb'_toNat]

theorem sign16_eq (h : F16) : sign16 h = h.toNat / 2 ^ 15 := by
  have := h.isLt
  simp [sign16, BitVec.extractLsb'_toNat, Nat.shiftRight_eq_div_pow]; omega

theorem exp16_eq (h : F16) : exp16 h = h.toNat / 2 ^ 10 % 2 ^ 5 := by
  simp [exp16, BitVec.extractLsb'_toNat, Nat.shiftRight_eq_div_pow]

theorem frac16_eq (h : F16) : frac16 h = h.toNat % 2 ^ 10 := by
  simp [frac16, BitVec.extractLsb'_toNat]

theorem mag16_eq (h : F16) : mag16 h = h.toNat % 2 ^ 15 := by
  simp [mag16, BitVec.extractLsb'_toNat]

theorem sign32_lt (x : F32) : sign32 x < 2 := (x.extractLsb' 31 1).isLt
theorem exp32_lt (x : F32) : exp32 x < 256 := (x.extractLsb' 23 8).isLt
theorem frac32_lt (x : F32) : frac32 x < 2 ^ 23 := (x.extractLsb' 0 23).isLt
theorem mag32_lt (x : F32) : mag32 x < 2 ^ 31 := (x.extractLsb' 0 31).isLt
theorem sign16_lt (h : F16) : sign16 h < 2 := (h.extractLsb' 15 1).isLt
theorem exp16_lt (h : F16) : exp16 h < 32 := (h.extractLsb' 10 5).isLt
theorem frac16_lt (h : F16) : frac16 h < 2 ^ 10 := (h.extractLsb' 0 10).isLt
theorem mag16_lt (h : F16) : mag16 h < 2 ^ 15 := (h.extractLsb' 0 15).isLt

/-- The magnitude is the exponent field above the fraction field (R47). -/
theorem mag32_split (x : F32) : mag32 x = exp32 x * 2 ^ 23 + frac32 x := by
  rw [mag32_eq, exp32_eq, frac32_eq]; omega

theorem mag16_split (h : F16) : mag16 h = exp16 h * 2 ^ 10 + frac16 h := by
  rw [mag16_eq, exp16_eq, frac16_eq]; omega

/-- A pattern is its sign above its magnitude (R47). -/
theorem toNat_split32 (x : F32) : x.toNat = sign32 x * 2 ^ 31 + mag32 x := by
  rw [mag32_eq, sign32_eq]; omega

theorem toNat_split16 (h : F16) : h.toNat = sign16 h * 2 ^ 15 + mag16 h := by
  rw [mag16_eq, sign16_eq]; omega

/-- Shifting one number above another and joining them with `|` is addition when the lower one fits. -/
theorem shiftLeft_or_eq {n v : Nat} (s : Nat) (hv : v < 2 ^ n) : s <<< n ||| v = s * 2 ^ n + v := by
  rw [Nat.shiftLeft_eq, Nat.mul_comm, Nat.two_pow_add_eq_or_of_lt hv]

theorem pack16_toNat {s v : Nat} (hs : s < 2) (hv : v < 2 ^ 15) : (pack16 s v).toNat = s * 2 ^ 15 + v := by
  rw [pack16, shiftLeft_or_eq s hv, BitVec.toNat_ofNat]; omega

theorem pack32_toNat {s v : Nat} (hs : s < 2) (hv : v < 2 ^ 31) : (pack32 s v).toNat = s * 2 ^ 31 + v := by
  rw [pack32, shiftLeft_or_eq s hv, BitVec.toNat_ofNat]; omega

theorem sign16_pack16 {s v : Nat} (hs : s < 2) (hv : v < 2 ^ 15) : sign16 (pack16 s v) = s := by
  rw [sign16_eq, pack16_toNat hs hv]; omega

theorem mag16_pack16 {s v : Nat} (hs : s < 2) (hv : v < 2 ^ 15) : mag16 (pack16 s v) = v := by
  rw [mag16_eq, pack16_toNat hs hv]; omega

theorem exp16_pack16 {s v : Nat} (hs : s < 2) (hv : v < 2 ^ 15) : exp16 (pack16 s v) = v / 2 ^ 10 := by
  rw [exp16_eq, pack16_toNat hs hv]; omega

theorem frac16_pack16 {s v : Nat} (hs : s < 2) (hv : v < 2 ^ 15) : frac16 (pack16 s v) = v % 2 ^ 10 := by
  rw [frac16_eq, pack16_toNat hs hv]; omega

theorem sign32_pack32 {s v : Nat} (hs : s < 2) (hv : v < 2 ^ 31) : sign32 (pack32 s v) = s := by
  rw [sign32_eq, pack32_toNat hs hv]; omega

theorem mag32_pack32 {s v : Nat} (hs : s < 2) (hv : v < 2 ^ 31) : mag32 (pack32 s v) = v := by
  rw [mag32_eq, pack32_toNat hs hv]; omega

theorem exp32_pack32 {s v : Nat} (hs : s < 2) (hv : v < 2 ^ 31) : exp32 (pack32 s v) = v / 2 ^ 23 := by
  rw [exp32_eq, pack32_toNat hs hv]; omega

theorem frac32_pack32 {s v : Nat} (hs : s < 2) (hv : v < 2 ^ 31) : frac32 (pack32 s v) = v % 2 ^ 23 := by
  rw [frac32_eq, pack32_toNat hs hv]; omega

/-- A pattern is packed from its own sign and magnitude. -/
theorem pack16_self (h : F16) : pack16 (sign16 h) (mag16 h) = h := by
  apply BitVec.eq_of_toNat_eq
  rw [pack16_toNat (sign16_lt h) (mag16_lt h), ← toNat_split16]

theorem pack32_self (x : F32) : pack32 (sign32 x) (mag32 x) = x := by
  apply BitVec.eq_of_toNat_eq
  rw [pack32_toNat (sign32_lt x) (mag32_lt x), ← toNat_split32]

/-- OR-ing in the implicit 1 adds it (R62). -/
theorem hidden32_or {f : Nat} (hf : f < 2 ^ 23) : hidden32 ||| f = 2 ^ 23 + f := by
  have := shiftLeft_or_eq 1 hf
  simpa using this

/-- What `Params.wf` says of the clamp threshold (R7). -/
theorem wf_ovfLimit {p : Params} (hp : p.wf = true) : 0x477FE000 ≤ p.ovfLimit.toNat ∧ p.ovfLimit.toNat ≤ 0x477FFFFF := by
  simp only [Params.wf, Params.ovfLimitOk, Bool.and_eq_true, decide_eq_true_eq] at hp
  exact hp.1

/-- What `Params.wf` says of the decoder's NaN (R7): an all-ones exponent field over a nonzero fraction field. -/
theorem wf_decNan {p : Params} (hp : p.wf = true) :
    p.decNan.toNat / 2 ^ 23 = 255 ∧ 0 < p.decNan.toNat % 2 ^ 23 ∧ p.decNan.toNat < 2 ^ 31 := by
  simp only [Params.wf, Params.decNanOk, Bool.and_eq_true, decide_eq_true_eq] at hp
  obtain ⟨h1, h2⟩ := hp.2
  have hlt := p.decNan.isLt
  have e1 := congrArg BitVec.toNat h1
  have e2 : (p.decNan.extractLsb' 0 23).toNat ≠ 0 := fun h => h2 (BitVec.eq_of_toNat_eq (by simpa using h))
  simp [BitVec.extractLsb'_toNat, Nat.shiftRight_eq_div_pow] at e1 e2
  omega

theorem specParams_wf : specParams.wf = true := by decide

end Sys2Proof.Machine
end

