-- ==== Sys2Proof/Laws/Convert.lean ====
section
/-! SUPPORT. The two conversions, path by path, in plain arithmetic: what later proofs cite instead of unfolding them. -/

namespace Sys2Proof.Machine

theorem canonicalNan16_toNat {s : Nat} (hs : s < 2) : (canonicalNan16 s).toNat = s * 2 ^ 15 + 0x7FFF :=
  pack16_toNat hs (by decide)

theorem canonicalNan32_toNat (p : Params) {s : Nat} (hs : s < 2) : (canonicalNan32 p s).toNat = s * 2 ^ 31 + p.decNan.toNat :=
  pack32_toNat hs p.decNan.isLt

/-- Everything `codecEncode` can answer when the parameters are in range: its sign is the operand's, and its magnitude bits are those of
one of five disjoint cases (R59 to R63). -/
theorem codecEncode_cases {p : Params} (hp : p.wf = true) (x : F32) :
    ∃ v, v < 2 ^ 15 ∧ codecEncode p x = pack16 (sign32 x) v ∧
      ((exp32 x = 255 ∧ frac32 x ≠ 0 ∧ v = 0x7FFF) ∨
       (exp32 x = 255 ∧ frac32 x = 0 ∧ v = 0x7C00) ∨
       (exp32 x ≠ 255 ∧ p.ovfLimit.toNat < mag32 x ∧ v = 0x7FFF) ∨
       (exp32 x ≤ 112 ∧ mag32 x ≤ p.ovfLimit.toNat ∧ mag32 x < 0x38800000 ∧ v < 2 ^ 10 ∧
          v = (2 ^ 23 + frac32 x) / 2 ^ (113 - exp32 x + 13)) ∨
       (113 ≤ exp32 x ∧ exp32 x ≤ 142 ∧ 0x38800000 ≤ mag32 x ∧ mag32 x ≤ p.ovfLimit.toNat ∧
          v = (exp32 x - 112) * 2 ^ 10 + frac32 x / 2 ^ 13)) := by
  obtain ⟨hl, hu⟩ := wf_ovfLimit hp
  have hf := frac32_lt x
  have hsplit := mag32_split x
  unfold codecEncode
  split
  · exact ⟨0x7FFF, by decide, rfl, by omega⟩
  split
  · exact ⟨0x7C00, by decide, by simp, by omega⟩
  split
  · exact ⟨0x7FFF, by decide, rfl, by omega⟩
  split
  · next hov hun =>
    simp only [min16Norm32] at hun
    have he : exp32 x ≤ 112 := by omega
    have hv : (2 ^ 23 + frac32 x) / 2 ^ (113 - exp32 x + 13) < 2 ^ 10 := by
      rw [Nat.div_lt_iff_lt_mul (by positivity)]
      have : 2 ^ 14 ≤ 2 ^ (113 - exp32 x + 13) := Nat.pow_le_pow_right (by decide) (by omega)
      omega
    refine ⟨_, ?_, ?_, .inr (.inr (.inr (.inl ⟨he, by omega, hun, hv, rfl⟩)))⟩
    · omega
    · rw [hidden32_or hf, ufBase, fracShift, Nat.shiftRight_eq_div_pow, Nat.shiftRight_eq_div_pow,
        Nat.div_div_eq_div_mul, ← pow_add]
  · next hov hun =>
    simp only [min16Norm32] at hun
    refine ⟨(exp32 x - 112) * 2 ^ 10 + frac32 x / 2 ^ 13, by omega, ?_,
      .inr (.inr (.inr (.inr ⟨by omega, by omega, by omega, by omega, rfl⟩)))⟩
    rw [biasDiff32, fracShift, Nat.shiftRight_eq_div_pow]
    congr 1
    omega

/-- Everything `codecDecode` can answer: its sign is the operand's, and its magnitude bits are those of one of five disjoint cases
(R67 to R70). -/
theorem codecDecode_cases (p : Params) (h : F16) :
    ∃ v, v < 2 ^ 31 ∧ codecDecode p h = pack32 (sign16 h) v ∧
      ((exp16 h = 31 ∧ frac16 h = 0 ∧ v = 0x7F800000) ∨
       (exp16 h = 31 ∧ frac16 h ≠ 0 ∧ v = p.decNan.toNat) ∨
       (exp16 h = 0 ∧ frac16 h = 0 ∧ v = 0) ∨
       (exp16 h = 0 ∧ frac16 h ≠ 0 ∧ ∃ k, k ≤ 9 ∧ 2 ^ k ≤ frac16 h ∧ frac16 h < 2 ^ (k + 1) ∧
          v = (103 + k) * 2 ^ 23 + (frac16 h - 2 ^ k) * 2 ^ (23 - k)) ∨
       (1 ≤ exp16 h ∧ exp16 h ≤ 30 ∧ v = (exp16 h + 112) * 2 ^ 23 + frac16 h * 2 ^ 13)) := by
  have he := exp16_lt h
  have hm := frac16_lt h
  unfold codecDecode
  split
  · exact ⟨0x7F800000, by decide, by simp, by omega⟩
  split
  · exact ⟨_, p.decNan.isLt, rfl, by omega⟩
  split
  · next h0 =>
    split
    · exact ⟨0, by decide, rfl, by omega⟩
    · next hne =>
      have hlo := Nat.log2_self_le hne
      have hhi := Nat.lt_log2_self (n := frac16 h)
      have hk : Nat.log2 (frac16 h) ≤ 9 := by
        have := (Nat.log2_lt hne).2 hm
        omega
      generalize Nat.log2 (frac16 h) = k at hlo hhi hk
      have hmask : (frac16 h <<< (23 - k)) &&& frac32Mask = (frac16 h - 2 ^ k) * 2 ^ (23 - k) := by
        have e : frac32Mask = 2 ^ 23 - 1 := rfl
        rw [e, Nat.and_two_pow_sub_one_eq_mod, Nat.shiftLeft_eq]
        have hp23 : 2 ^ k * 2 ^ (23 - k) = 2 ^ 23 := by rw [← pow_add]; congr 1; omega
        have hlt : frac16 h * 2 ^ (23 - k) < 2 * 2 ^ 23 := by
          calc frac16 h * 2 ^ (23 - k) < 2 ^ (k + 1) * 2 ^ (23 - k) := Nat.mul_lt_mul_of_pos_right hhi (by positivity)
            _ = 2 * 2 ^ 23 := by rw [pow_succ, ← hp23]; ring
        have hge : 2 ^ 23 ≤ frac16 h * 2 ^ (23 - k) := hp23 ▸ Nat.mul_le_mul_right _ hlo
        rw [Nat.sub_mul, hp23]
        omega
      have hlt : (frac16 h - 2 ^ k) * 2 ^ (23 - k) < 2 ^ 23 := by
        have hp23 : 2 ^ k * 2 ^ (23 - k) = 2 ^ 23 := by rw [← pow_add]; congr 1; omega
        have h2 : frac16 h - 2 ^ k < 2 ^ k := by rw [pow_succ] at hhi; omega
        calc _ < 2 ^ k * 2 ^ (23 - k) := Nat.mul_lt_mul_of_pos_right h2 (by positivity)
          _ = _ := hp23
      refine ⟨(103 + k) * 2 ^ 23 + (frac16 h - 2 ^ k) * 2 ^ (23 - k), by omega, ?_,
        .inr (.inr (.inr (.inl ⟨h0, hne, k, hk, hlo, hhi, rfl⟩)))⟩
      rw [hmask, shiftLeft_or_eq _ hlt]
  · refine ⟨(exp16 h + 112) * 2 ^ 23 + frac16 h * 2 ^ 13, by omega, ?_, .inr (.inr (.inr (.inr ⟨by omega, by omega, rfl⟩)))⟩
    have hlt : frac16 h <<< fracShift < 2 ^ 23 := by rw [fracShift, Nat.shiftLeft_eq]; omega
    rw [rebias, shiftLeft_or_eq _ hlt, fracShift, Nat.shiftLeft_eq]

end Sys2Proof.Machine
end

