-- ==== Sys2Proof/Laws/Decode.lean ====
section
/-! SUPPORT. The request word as a number, and the `op` bit. -/

namespace Sys2Proof

theorem encode_encodeF32ToF16_toNat (x : F32) : (encode (.encodeF32ToF16 x)).toNat = x.toNat := by
  have h : (0#1 ++ x : BitVec (1 + 32)).toNat = x.toNat := by
    rw [BitVec.toNat_append]; simp
  exact h

theorem encode_decodeF16ToF32_toNat (ignored : BitVec 16) (h : F16) :
    (encode (.decodeF16ToF32 ignored h)).toNat = 2 ^ 32 + ignored.toNat * 2 ^ 16 + h.toNat := by
  have e1 : (ignored ++ h : BitVec (16 + 16)).toNat = ignored.toNat * 2 ^ 16 + h.toNat := by
    rw [BitVec.toNat_append, Nat.shiftLeft_eq, Nat.mul_comm, Nat.two_pow_add_eq_or_of_lt h.isLt]
  have e2 : (1#1 ++ (ignored ++ h : BitVec 32) : BitVec (1 + 32)).toNat = 2 ^ 32 + (ignored ++ h : BitVec (16 + 16)).toNat := by
    rw [BitVec.toNat_append, Nat.shiftLeft_eq, Nat.mul_comm]
    exact (Nat.two_pow_add_eq_or_of_lt (ignored ++ h : BitVec (16 + 16)).isLt 1).symm
  have e3 : (encode (.decodeF16ToF32 ignored h)).toNat = 2 ^ 32 + (ignored ++ h : BitVec (16 + 16)).toNat := e2
  rw [e3, e1, Nat.add_assoc]

/-- Bit 32 of a request, its `op` (R37), is whether the word is at or above 2^32. -/
theorem op_eq (w : Request) : w.getLsbD 32 = decide (2 ^ 32 ≤ w.toNat) := by
  have hw := w.isLt
  rw [BitVec.getLsbD, Nat.testBit_eq_decide_div_mod_eq]
  congr 1
  apply propext
  omega

theorem op_encodeF32ToF16 (x : F32) : (encode (.encodeF32ToF16 x)).getLsbD 32 = false := by
  have := x.isLt
  rw [op_eq, encode_encodeF32ToF16_toNat]; simp; omega

theorem op_decodeF16ToF32 (ignored : BitVec 16) (h : F16) : (encode (.decodeF16ToF32 ignored h)).getLsbD 32 = true := by
  rw [op_eq, encode_decodeF16ToF32_toNat]; simp; omega

/-- The mask of both rows leaves the `op` bit alone (R38, R44). -/
theorem and_opMask (w : Request) : w &&& 0x100000000#33 = if w.getLsbD 32 then 0x100000000#33 else 0#33 := by
  have e : 0x100000000#33 = BitVec.twoPow 33 32 := by decide
  rw [e, BitVec.and_twoPow]

/-- Which words stand in the row of `EncodeF32ToF16` (R38). -/
theorem covers_rowEncodeF32ToF16 (w : Request) : rowEncodeF32ToF16.covers w = !w.getLsbD 32 := by
  change (w &&& 0x100000000#33 == 0#33) = _
  rw [and_opMask]
  cases w.getLsbD 32 <;> decide

/-- Which words stand in the row of `DecodeF16ToF32` (R38). -/
theorem covers_rowDecodeF16ToF32 (w : Request) : rowDecodeF16ToF32.covers w = w.getLsbD 32 := by
  change (w &&& 0x100000000#33 == 0x100000000#33) = _
  rw [and_opMask]
  cases w.getLsbD 32 <;> decide

theorem rowDecode_ne_rowEncode : rowDecodeF16ToF32 ≠ rowEncodeF32ToF16 := by decide

end Sys2Proof
end

