-- ==== Sys2Proof/Laws/PerInstr.lean ====
section
/-! SUPPORT. Statements made per instruction. -/

/-- The row of the opcode table that an instruction stands in covers its request word, and no other row does (spec R38, R43). -/
def Sys2Proof.Laws.OneRow.Statement (i : Sys2Proof.Instr) : Prop :=
  i.wf = true ∧ ∀ row ∈ Sys2Proof.opcodeTable, row.covers (Sys2Proof.encode i) = true ↔ row = Sys2Proof.rowOf i

theorem Sys2Proof.Laws.OneRow.encodeF32ToF16 (x : Sys2Proof.F32) :
    Sys2Proof.Laws.OneRow.Statement (.encodeF32ToF16 x) := by
  refine ⟨rfl, ?_⟩
  simp [Sys2Proof.opcodeTable, Sys2Proof.rowOf, Sys2Proof.covers_rowEncodeF32ToF16, Sys2Proof.covers_rowDecodeF16ToF32,
    Sys2Proof.op_encodeF32ToF16, Sys2Proof.rowDecode_ne_rowEncode, -BitVec.getLsbD_eq_getElem]

theorem Sys2Proof.Laws.OneRow.decodeF16ToF32 (ignored : BitVec 16) (h : Sys2Proof.F16) :
    Sys2Proof.Laws.OneRow.Statement (.decodeF16ToF32 ignored h) := by
  refine ⟨rfl, ?_⟩
  simp [Sys2Proof.opcodeTable, Sys2Proof.rowOf, Sys2Proof.covers_rowEncodeF32ToF16, Sys2Proof.covers_rowDecodeF16ToF32,
    Sys2Proof.op_decodeF16ToF32, Sys2Proof.rowDecode_ne_rowEncode.symm, -BitVec.getLsbD_eq_getElem]
end

