-- ==== Sys2Proof/Laws/State.lean ====
section
/-! SUPPORT. One lemma per field per update of the boundary, each true by rfl. -/

namespace Sys2Proof.Machine

@[simp] theorem driveEnc_params (x : F32) (s : State) : (driveEnc x s).params = s.params := rfl
@[simp] theorem driveEnc_encIn (x : F32) (s : State) : (driveEnc x s).encIn = Lines.known x := rfl
@[simp] theorem driveEnc_decIn (x : F32) (s : State) : (driveEnc x s).decIn = s.decIn := rfl
@[simp] theorem driveEnc_req (x : F32) (s : State) : (driveEnc x s).req = s.req := rfl
@[simp] theorem driveEnc_pending (x : F32) (s : State) : (driveEnc x s).pending = s.pending := rfl
@[simp] theorem driveEnc_served (x : F32) (s : State) : (driveEnc x s).served = s.served := rfl

@[simp] theorem driveDec_params (h : F16) (s : State) : (driveDec h s).params = s.params := rfl
@[simp] theorem driveDec_encIn (h : F16) (s : State) : (driveDec h s).encIn = s.encIn := rfl
@[simp] theorem driveDec_decIn (h : F16) (s : State) : (driveDec h s).decIn = Lines.known h := rfl
@[simp] theorem driveDec_req (h : F16) (s : State) : (driveDec h s).req = s.req := rfl
@[simp] theorem driveDec_pending (h : F16) (s : State) : (driveDec h s).pending = s.pending := rfl
@[simp] theorem driveDec_served (h : F16) (s : State) : (driveDec h s).served = s.served := rfl

@[simp] theorem driveReq_params (w : Request) (s : State) : (driveReq w s).params = s.params := rfl
@[simp] theorem driveReq_encIn (w : Request) (s : State) : (driveReq w s).encIn = s.encIn := rfl
@[simp] theorem driveReq_decIn (w : Request) (s : State) : (driveReq w s).decIn = s.decIn := rfl
@[simp] theorem driveReq_req (w : Request) (s : State) : (driveReq w s).req = Lines.known w := rfl
@[simp] theorem driveReq_pending (w : Request) (s : State) : (driveReq w s).pending = s.pending := rfl
@[simp] theorem driveReq_served (w : Request) (s : State) : (driveReq w s).served = s.served := rfl

@[simp] theorem record_params (e : Evaluation) (s : State) : (record e s).params = s.params := rfl
@[simp] theorem record_encIn (e : Evaluation) (s : State) : (record e s).encIn = s.encIn := rfl
@[simp] theorem record_decIn (e : Evaluation) (s : State) : (record e s).decIn = s.decIn := rfl
@[simp] theorem record_req (e : Evaluation) (s : State) : (record e s).req = s.req := rfl
@[simp] theorem record_pending (e : Evaluation) (s : State) : (record e s).pending = s.pending := rfl
@[simp] theorem record_served (e : Evaluation) (s : State) : (record e s).served = s.served ++ [e] := rfl

@[simp] theorem setPending_params (rest : List Stimulus) (s : State) : (setPending rest s).params = s.params := rfl
@[simp] theorem setPending_encIn (rest : List Stimulus) (s : State) : (setPending rest s).encIn = s.encIn := rfl
@[simp] theorem setPending_decIn (rest : List Stimulus) (s : State) : (setPending rest s).decIn = s.decIn := rfl
@[simp] theorem setPending_req (rest : List Stimulus) (s : State) : (setPending rest s).req = s.req := rfl
@[simp] theorem setPending_pending (rest : List Stimulus) (s : State) : (setPending rest s).pending = rest := rfl
@[simp] theorem setPending_served (rest : List Stimulus) (s : State) : (setPending rest s).served = s.served := rfl

end Sys2Proof.Machine
end

