-- ==== Sys2Proof/Laws/Step.lean ====
section
/-! SUPPORT. What serving a stimulus and taking a step can do, said once. -/

namespace Sys2Proof.Machine

@[simp] theorem readLines_known {w : Nat} (v : BitVec w) : readLines (Lines.known v) = some v := by
  simp [readLines, Lines.known]

theorem readLines_of_driven {w : Nat} {l : Lines w} (h : linesDriven l = true) : readLines l = some l.value := by
  have : l.unknown = 0 := by simpa [linesDriven] using h
  simp [readLines, this]

theorem readLines_of_not_driven {w : Nat} {l : Lines w} (h : linesDriven l = false) : readLines l = none := by
  have : ¬ l.unknown = 0 := by simpa [linesDriven] using h
  rw [readLines, if_neg this]

/-- Lines that are all driven are the known lines of what they show. -/
theorem known_of_driven {w : Nat} {l : Lines w} (h : linesDriven l = true) : Lines.known l.value = l := by
  obtain ⟨v, u⟩ := l
  have : u = 0 := by simpa [linesDriven] using h
  simp [Lines.known, this]

/-- What `exec` does, said once: it always answers, records one evaluation with the result of R41, drives one unit's port, and leaves the
parameters, the request lines and the caller's plans alone. -/
theorem exec_next (i : Instr) (s : State) : ∃ t, exec i s = .next t ∧
    t.served = s.served ++ [.request i (respond s.params i)] ∧ t.params = s.params ∧ t.pending = s.pending ∧ t.req = s.req := by
  cases i <;> exact ⟨_, rfl, rfl, rfl, rfl, rfl⟩

/-- A driven stimulus is always answered: its evaluations are appended to the record with the results the rules give, and nothing of
the parameters or of the caller's plans changes. -/
theorem serve_driven {st : Stimulus} (hd : st.driven = true) (s : State) : ∃ t, serve st s = .next t ∧
    t.served = s.served ++ st.answers s.params ∧ t.params = s.params ∧ t.pending = s.pending := by
  cases st with
  | request l =>
    simp only [Stimulus.driven] at hd
    obtain ⟨t, ht, h1, h2, h3, -⟩ := exec_next (decode l.value) (driveReq l.value s)
    exact ⟨t, by simp [serve, serveRequest, readLines_of_driven hd, ht], by simpa [Stimulus.answers] using h1, h2, h3⟩
  | enc l =>
    simp only [Stimulus.driven] at hd
    exact ⟨evalEnc l.value s, by simp [serve, serveEnc, readLines_of_driven hd], rfl, rfl, rfl⟩
  | dec l =>
    simp only [Stimulus.driven] at hd
    exact ⟨evalDec l.value s, by simp [serve, serveDec, readLines_of_driven hd], rfl, rfl, rfl⟩
  | both le ld =>
    simp only [Stimulus.driven, Bool.and_eq_true] at hd
    exact ⟨evalDec ld.value (evalEnc le.value s),
      by simp [serve, serveBoth, readLines_of_driven hd.1, readLines_of_driven hd.2],
      by simp [evalEnc, evalDec, Stimulus.answers], rfl, rfl⟩

/-- A stimulus with an undriven line is always refused, under the one name there is for it (R94). -/
theorem serve_undriven {st : Stimulus} (hd : st.driven = false) (s : State) :
    ∃ port, serve st s = .refused (.undrivenInput port) := by
  cases st with
  | request l => exact ⟨.req, by simp [serve, serveRequest, readLines_of_not_driven (l := l) hd]⟩
  | enc l => exact ⟨.encIn, by simp [serve, serveEnc, readLines_of_not_driven (l := l) hd]⟩
  | dec l => exact ⟨.decIn, by simp [serve, serveDec, readLines_of_not_driven (l := l) hd]⟩
  | both le ld =>
    simp only [Stimulus.driven] at hd
    cases hle : linesDriven le
    · exact ⟨.encIn, by simp [serve, serveBoth, readLines_of_not_driven hle]⟩
    · have hld : linesDriven ld = false := by simpa [hle] using hd
      exact ⟨.decIn, by simp [serve, serveBoth, readLines_of_driven hle, readLines_of_not_driven hld]⟩

/-- What a step that answers can have done: nothing, when nothing was asked, or the evaluations of one driven stimulus. -/
theorem step_cases {s t : State} (h : step s = .next t) :
    (s.pending = [] ∧ t = s) ∨
    (∃ st rest, s.pending = st :: rest ∧ st.driven = true ∧ t.pending = rest ∧
      t.served = s.served ++ st.answers s.params ∧ t.params = s.params) := by
  unfold step at h
  split at h
  · next hnil => exact .inl ⟨hnil, by simpa [idle] using h.symm⟩
  · next st rest hcons =>
    cases hd : st.driven with
    | false =>
      obtain ⟨port, hr⟩ := serve_undriven hd (setPending rest s)
      simp [hr] at h
    | true =>
      obtain ⟨t', ht', h1, h2, h3⟩ := serve_driven hd (setPending rest s)
      rw [ht'] at h
      injection h with h
      subst h
      exact .inr ⟨st, rest, hcons, hd, h3, h1, h2⟩

/-- A step at a driven stimulus, forwards. -/
theorem step_driven {s : State} {st : Stimulus} {rest : List Stimulus} (hs : s.pending = st :: rest) (hd : st.driven = true) :
    ∃ t, step s = .next t ∧ t.pending = rest ∧ t.served = s.served ++ st.answers s.params ∧ t.params = s.params := by
  obtain ⟨t, ht, h1, h2, h3⟩ := serve_driven hd (setPending rest s)
  exact ⟨t, by simp [step, hs, ht], h3, h1, h2⟩

end Sys2Proof.Machine
end

