-- ==== Sys2Proof/Laws/Values.lean ====
section
/-! SUPPORT. The value of a pattern that is finite, as a whole number of the smallest subnormal of its width (spec R51). -/

namespace Sys2Proof.Machine

/-- The magnitude of a finite binary32 pattern in units of 2^−149. -/
def units32 (x : F32) : Nat := if exp32 x = 0 then frac32 x else (2 ^ 23 + frac32 x) * 2 ^ (exp32 x - 1)

/-- The magnitude of a finite binary16 pattern in units of 2^−24. -/
def units16 (h : F16) : Nat := if exp16 h = 0 then frac16 h else (2 ^ 10 + frac16 h) * 2 ^ (exp16 h - 1)

/-- R51, the rows Subnormal and Normal at once: the value in units of the smallest subnormal. -/
theorem valueOf_units {f : Format} {s ex fr : Nat} (hex : ex ≠ f.expMax) (h : ¬ (ex = 0 ∧ fr = 0)) :
    valueOf f s ex fr = .finite ((-1) ^ s *
      ((if ex = 0 then fr else (2 ^ f.fracWidth + fr) * 2 ^ (ex - 1) : Nat) : ℚ) * 2 ^ (1 - (f.bias : ℤ) - f.fracWidth)) := by
  by_cases h0 : ex = 0
  · have hfr : fr ≠ 0 := fun e => h ⟨h0, e⟩
    simp [valueOf, categoryOf, h0, hfr]
  · have e1 : ((ex : ℤ) - f.bias) = ((ex - 1 : Nat) : ℤ) + (1 - (f.bias : ℤ) - f.fracWidth) + (f.fracWidth : ℤ) := by
      rw [Nat.cast_sub (by omega)]; push_cast; ring
    simp only [valueOf, categoryOf, h0, hex, if_false]
    congr 1
    rw [e1, zpow_add₀ (by norm_num), zpow_add₀ (by norm_num), zpow_natCast, zpow_natCast]
    push_cast
    field_simp

theorem valueOf_zero (f : Format) (s : Nat) : valueOf f s 0 0 = .zero (s == 1) := rfl

theorem abs_signed (s n : Nat) (k : ℤ) : Value.abs (.finite ((-1) ^ s * (n : ℚ) * 2 ^ k)) = some (((n : ℚ) * 2 ^ k : ℚ) : WithTop ℚ) := by
  have : |(-1 : ℚ) ^ s * (n : ℚ) * 2 ^ k| = (n : ℚ) * 2 ^ k := by
    rw [abs_mul, abs_mul, abs_pow, abs_neg, abs_one, one_pow, one_mul, abs_of_nonneg (by positivity : (0 : ℚ) ≤ n),
      abs_of_nonneg (by positivity : (0 : ℚ) ≤ 2 ^ k)]
  rw [Value.abs, this]

/-- R51: the absolute value of a finite binary32 pattern. -/
theorem val32_abs {x : F32} (h : exp32 x ≠ 255) :
    (val32 x).abs = some (((units32 x : ℚ) * 2 ^ (-149 : ℤ) : ℚ) : WithTop ℚ) := by
  by_cases hz : exp32 x = 0 ∧ frac32 x = 0
  · rw [val32, hz.1, hz.2, valueOf_zero]; simp [Value.abs, units32, hz.1, hz.2]
  · rw [val32, valueOf_units (by simpa [binary32, Format.expMax] using h) hz, abs_signed]
    rfl

/-- R51: the absolute value of a finite binary16 pattern. -/
theorem val16_abs {g : F16} (h : exp16 g ≠ 31) :
    (val16 g).abs = some (((units16 g : ℚ) * 2 ^ (-24 : ℤ) : ℚ) : WithTop ℚ) := by
  by_cases hz : exp16 g = 0 ∧ frac16 g = 0
  · rw [val16, hz.1, hz.2, valueOf_zero]; simp [Value.abs, units16, hz.1, hz.2]
  · rw [val16, valueOf_units (by simpa [binary16, Format.expMax] using h) hz, abs_signed]
    rfl

/-- R51: with an all-ones exponent field the absolute value is the top, or there is none. -/
theorem val32_abs_special {x : F32} (h : exp32 x = 255) :
    (val32 x).abs = if frac32 x = 0 then some ⊤ else none := by
  by_cases hf : frac32 x = 0 <;> simp [val32, valueOf, categoryOf, h, hf, binary32, Format.expMax, Value.abs]

theorem val16_abs_special {g : F16} (h : exp16 g = 31) :
    (val16 g).abs = if frac16 g = 0 then some ⊤ else none := by
  by_cases hf : frac16 g = 0 <;> simp [val16, valueOf, categoryOf, h, hf, binary16, Format.expMax, Value.abs]

/-- R52: the units grow strictly with the magnitude bits. -/
theorem units_lt {w : Nat} {e₁ f₁ e₂ f₂ : Nat} (h₁ : f₁ < 2 ^ w) (h : e₁ * 2 ^ w + f₁ < e₂ * 2 ^ w + f₂) (h₂ : f₂ < 2 ^ w) :
    (if e₁ = 0 then f₁ else (2 ^ w + f₁) * 2 ^ (e₁ - 1)) < (if e₂ = 0 then f₂ else (2 ^ w + f₂) * 2 ^ (e₂ - 1)) := by
  have he : e₁ ≤ e₂ := by
    by_contra hc
    have : (e₂ + 1) * 2 ^ w ≤ e₁ * 2 ^ w := Nat.mul_le_mul_right _ (by omega)
    rw [Nat.add_mul] at this; omega
  rcases Nat.eq_or_lt_of_le he with rfl | hlt
  · have hf : f₁ < f₂ := by omega
    split
    · exact hf
    · exact Nat.mul_lt_mul_of_pos_right (by omega) (by positivity)
  · rw [if_neg (by omega : ¬ e₂ = 0)]
    have hlow : (2 ^ w) * 2 ^ (e₂ - 1) ≤ (2 ^ w + f₂) * 2 ^ (e₂ - 1) := Nat.mul_le_mul_right _ (by omega)
    refine Nat.lt_of_lt_of_le ?_ hlow
    split
    · exact Nat.lt_of_lt_of_le h₁ (Nat.le_mul_of_pos_right _ (by positivity))
    · have : 2 ^ (e₁ - 1) * 2 ≤ 2 ^ (e₂ - 1) := by rw [← pow_succ]; exact Nat.pow_le_pow_right (by decide) (by omega)
      calc (2 ^ w + f₁) * 2 ^ (e₁ - 1) < (2 ^ w + 2 ^ w) * 2 ^ (e₁ - 1) := Nat.mul_lt_mul_of_pos_right (by omega) (by positivity)
        _ = 2 ^ w * (2 ^ (e₁ - 1) * 2) := by ring
        _ ≤ _ := Nat.mul_le_mul_left _ this

theorem units32_lt {x y : F32} (h : mag32 x < mag32 y) : units32 x < units32 y := by
  rw [mag32_split, mag32_split] at h
  exact units_lt (frac32_lt x) h (frac32_lt y)

theorem units16_lt {g h : F16} (hm : mag16 g < mag16 h) : units16 g < units16 h := by
  rw [mag16_split, mag16_split] at hm
  exact units_lt (frac16_lt g) hm (frac16_lt h)

end Sys2Proof.Machine
end

