-- ==== Sys2Proof/Machine/Flags.lean ====
section
/-! DEFINITION. Flags: none, so this file defines nothing. Spec R19: "No status flag, condition code, sticky exception flag or
predicate is written or read." R75: none of IEEE-754's exceptions is signalled. R58 and R66: flags written, none. -/
end

