-- ==== Sys2Proof/Tests/Slice0.lean ====
section
/-! SUPPORT. Tests of the model on fixed values, and a witness for the hypotheses of every statement that has some.

Expected values are the spec's: 95_test_vectors.md L1 (the source's own examples) and L2, the tables of R48 and R7. -/

open Sys2Proof Sys2Proof.Machine

-- ==== Well-formedness: an ill-formed term for each check ====

theorem test_wf_refuses_ovfLimit_below_range : Params.wf ⟨0x477FDFFF, 0x7FC00000⟩ = false := by decide
theorem test_wf_refuses_ovfLimit_above_range : Params.wf ⟨0x47800000, 0x7FC00000⟩ = false := by decide
theorem test_wf_refuses_decNan_with_finite_exponent : Params.wf ⟨0x477FFFFF, 0x7F400000⟩ = false := by decide
theorem test_wf_refuses_decNan_that_is_infinity : Params.wf ⟨0x477FFFFF, 0x7F800000⟩ = false := by decide
theorem test_wf_accepts_both_ends : Params.wf ⟨0x477FE000, 0x7F800001⟩ = true ∧ Params.wf ⟨0x477FFFFF, 0x7FFFFFFF⟩ = true := by
  decide

-- ==== Decoding: words written out bit by bit from R37 to R40 ====

/-- L2.3: `op = 0`, `a = 0x3F800000`. -/
theorem test_decode_encodeF32ToF16 :
    decode 0b0_00111111100000000000000000000000 = .encodeF32ToF16 0x3F800000 := by decide
/-- L2.3: `op = 1`, `a = 0xDEAD3C00`. -/
theorem test_decode_decodeF16ToF32 :
    decode 0b1_11011110101011010011110000000000 = .decodeF16ToF32 0xDEAD 0x3C00 := by decide
theorem test_encode_words : encode (.encodeF32ToF16 0xC7800000) = 0x0C7800000 ∧
    encode (.decodeF16ToF32 0xFFFF 0x8000) = 0x1FFFF8000 := by decide
/-- R44: a 34-bit number is no request. -/
theorem test_decodeWord_rejects_bit_33 : decodeWord 0x200000000 = .error .widerThanARequest := by decide
theorem test_decodeTableWord : decodeTableWord 40 0x100003C00 = some (.decodeF16ToF32 0 0x3C00) ∧
    decodeTableWord 40 0x03F800000 = some (.encodeF32ToF16 0x3F800000) := by decide

-- ==== The constant table: the formulas of R48 and the formats of R6 ====

theorem test_constants_follow_their_formulas :
    biasDiff32 = (binary32.bias - binary16.bias) <<< binary32.fracWidth ∧ rebias = binary32.bias - binary16.bias ∧
    fracShift = binary32.fracWidth - binary16.fracWidth ∧ emin16 = 1 - binary16.bias ∧ (ufBase : Int) = emin16 + binary32.bias ∧
    hidden32 = 1 <<< binary32.fracWidth ∧ sign32Mask = 1 <<< 31 ∧ sign16Mask = 1 <<< 15 ∧
    exp32Mask = binary32.expMax <<< 23 ∧ exp16Mask = binary16.expMax <<< 10 ∧ frac32Mask = 2 ^ 23 - 1 ∧ frac16Mask = 2 ^ 10 - 1 ∧
    encNan = exp16Mask ||| frac16Mask ∧ min16Norm32 = (-14 + 127) <<< 23 ∧ min16Sub32 = (-24 + 127) <<< 23 := by decide

-- ==== Each instruction: two steps ====

/-- The word `w` asked right after power-up. -/
def placedAtReset (w : Nat) : Host.Outcome State Fault Refusal := step (State.reset.withFetchWord 40 w)

/-- The last answer of an outcome. -/
def lastAnswer (o : Host.Outcome State Fault Refusal) : Option Evaluation :=
  match o with
  | .next s => s.served.getLast?
  | .fault _ => none
  | .refused _ => none

/-- L2.1: just below 2^−14, truncated (rounding to nearest would give 0x0400). -/
theorem test_encode_truncates_below_normal :
    lastAnswer (placedAtReset 0x0387FFFFF) = some (.request (.encodeF32ToF16 0x387FFFFF) 0x000003FF) := by decide
/-- L1 entry 8 and L2.3: a negative overflow is the NaN pattern, zero-extended. -/
theorem test_encode_clamps_negative_overflow :
    lastAnswer (placedAtReset 0x0C7FFE000) = some (.request (.encodeF32ToF16 0xC7FFE000) 0x0000FFFF) := by decide
/-- L2.2: the largest subnormal. -/
theorem test_decode_largest_subnormal :
    lastAnswer (placedAtReset 0x1000003FF) = some (.request (.decodeF16ToF32 0 0x03FF) 0x387FC000) := by decide
/-- L2.3: the upper operand bits are ignored. -/
theorem test_decode_ignores_upper_bits :
    lastAnswer (placedAtReset 0x1DEAD3C00) = some (.request (.decodeF16ToF32 0xDEAD 0x3C00) 0x3F800000) := by decide
/-- L2.1, the alternative parameter: the band of decision D5 clamps. -/
theorem test_encode_band_by_parameter :
    codecEncode ⟨0x477FE000, 0x7FC00000⟩ 0x477FE001 = 0x7FFF ∧ codecEncode specParams 0x477FE001 = 0x7BFF := by decide
/-- R62: a shift by 113 yields 0 and is not reduced modulo any width. -/
theorem test_encode_shift_by_113 : codecEncode specParams 0x807FFFFF = 0x8000 := by decide

-- ==== Refusals, idling, text ====

/-- R94: one undriven line, even an ignored one, refuses the request. -/
theorem test_undriven_request_is_refused :
    serve (.request ⟨0x100003C00, 0x000010000⟩) State.reset = .refused (.undrivenInput .req) := by rfl
theorem test_undriven_ports_are_refused :
    serve (.enc (Lines.floating 32)) State.reset = .refused (.undrivenInput .encIn) ∧
    serve (.both (Lines.known 0) (Lines.floating 16)) State.reset = .refused (.undrivenInput .decIn) := ⟨rfl, rfl⟩
/-- R45: a decimal that binary32 does not represent is refused; so is a text of another form. -/
theorem test_text_refusals :
    readText "EncodeF32ToF16(0.1)".toList = .error .inexactDecimal ∧ readText "DecodeF16ToF32(1.0)".toList = .error .malformed := by
  decide
/-- L1: the operands 65504.0 and 131008.0 of the source's examples. -/
theorem test_text_decimals :
    readText "EncodeF32ToF16(65504.0)".toList = .ok (.encodeF32ToF16 0x477FE000) ∧
    readText "EncodeF32ToF16(131008.0)".toList = .ok (.encodeF32ToF16 0x47FFE000) := by decide

-- ==== Witnesses: hypotheses of the statements, met together ====

/-- A state whose caller asks `st` and then `rest`, with the spec values of the parameters. -/
def asking (st : Stimulus) (rest : List Stimulus) : State := setPending (st :: rest) State.reset

theorem witness_reset_params_wf : State.reset.params.wf = true := by decide

theorem witness_StepRunsTheDecodedRequest :
    (asking (.request (Lines.known 0x1DEAD3C00)) []).pending = .request (Lines.known 0x1DEAD3C00) :: [] := rfl
theorem witness_PlacedTableWordRunsNext : decodeTableWord 40 0x1FFFFFFFF = some (.decodeF16ToF32 0xFFFF 0xFFFF) ∧
    decodeTableWord 40 0x200000000 = none := by decide
theorem witness_EveryWordStandsInExactlyOneRow : (0x1FFFFFFFF : Nat) < 2 ^ 33 ∧ 2 ^ 33 ≤ (0x200000000 : Nat) := by decide
theorem witness_EncodeOfNanIsCanonicalNan : exp32 0xFF800001 = 255 ∧ frac32 0xFF800001 ≠ 0 := by decide
theorem witness_EncodeOfInfinityIsInfinity : exp32 0xFF800000 = 255 ∧ frac32 0xFF800000 = 0 := by decide
theorem witness_EncodeClampsOverflowToNanPattern :
    exp32 0x47800000 ≠ 255 ∧ State.reset.params.ovfLimit.toNat < mag32 0x47800000 ∧ State.reset.params.ovfLimit = 0x477FFFFF := by
  decide
theorem witness_EncodeClampsOverflowToNanPattern_value : (val32 0x47800000).abs = some ((65536 : ℚ) : WithTop ℚ) := by
  rw [val32_abs (by decide), show units32 0x47800000 = 2 ^ 165 by decide]; norm_num
theorem witness_EncodeClampsOverflowToNanPattern_sign : (1 : Nat) < 2 := by decide
theorem witness_EncodeUnderflowShiftsTheSignificand :
    mag32 0x387FFFFF < 0x38800000 ∧ exp32 0x337FFFFF = 102 ∧ mag32 0x337FFFFF < 0x38800000 ∧
    exp32 0x33800000 = 103 ∧ mag32 0x33800000 < 0x38800000 := by decide
theorem witness_EncodeNormalRangeRebiasesAndTruncates :
    0x38800000 ≤ mag32 0x38800000 ∧ mag32 0x38800000 ≤ State.reset.params.ovfLimit.toNat ∧
    0x38800000 ≤ mag32 0x477FFFFF ∧ mag32 0x477FFFFF ≤ State.reset.params.ovfLimit.toNat := by decide
theorem witness_DecodeOfInfinityIsInfinity : exp16 0xFC00 = 31 ∧ frac16 0xFC00 = 0 := by decide
theorem witness_DecodeOfNanIsTheParameterNan :
    exp16 0x7C01 = 31 ∧ frac16 0x7C01 ≠ 0 ∧ specParams.wf = true ∧ specParams.decNan = 0x7FC00000 := by decide
theorem witness_DecodeOfZeroOrSubnormalIsExact_zero : exp16 0x8000 = 0 ∧ frac16 0x8000 = 0 := by decide
theorem witness_DecodeOfZeroOrSubnormalIsExact_subnormal :
    exp16 0x03FF = 0 ∧ (frac16 0x03FF).testBit 9 = true ∧ ∀ j, 9 < j → (frac16 0x03FF).testBit j = false := by
  refine ⟨by decide, by decide, fun j hj => Nat.testBit_lt_two_pow ?_⟩
  calc frac16 0x03FF < 2 ^ 10 := frac16_lt _
    _ ≤ 2 ^ j := Nat.pow_le_pow_right (by decide) hj
theorem witness_DecodeOfNormalRebiasesAndShifts :
    1 ≤ exp16 0x0400 ∧ exp16 0x0400 ≤ 30 ∧ 1 ≤ exp16 0xFBFF ∧ exp16 0xFBFF ≤ 30 := by decide
theorem witness_MagnitudeOrderIsValueOrder :
    (val32 0x00000001).abs = some (((2 : ℚ) ^ (-149 : ℤ) : ℚ) : WithTop ℚ) ∧ (val32 0x7F800000).abs = some ⊤ ∧
    (val16 0x0001).abs = some (((2 : ℚ) ^ (-24 : ℤ) : ℚ) : WithTop ℚ) ∧ (val16 0xFC00).abs = some ⊤ := by
  refine ⟨?_, by rw [val32_abs_special (by decide)]; decide, ?_, by rw [val16_abs_special (by decide)]; decide⟩
  · rw [val32_abs (by decide), show units32 0x00000001 = 1 by decide]; norm_num
  · rw [val16_abs (by decide), show units16 0x0001 = 1 by decide]; norm_num
theorem witness_RegionsAreDisjointAndCoverAll : specParams.wf = true ∧ specParams.ovfLimit = 0x477FFFFF ∧
    region specParams 0x38800000 = .normalRange ∧ region specParams 0x387FFFFF = .underflow ∧
    region specParams 0x477FFFFF = .normalRange ∧ region specParams 0x47800000 = .overflow ∧
    region specParams 0x7F7FFFFF = .overflow ∧ region specParams 0x7F800000 = .inf ∧ region specParams 0x7F800001 = .nan := by decide
theorem witness_NanPayloadNeverReachesTheResult :
    class32 0xFFFFFFFF = .nan ∧ class16 0x7C01 = .nan ∧ specParams.decNan = 0x7FC00000 := by decide
theorem witness_CanonicalNanIsFixedExceptForItsSign : specParams.wf = true ∧
    (class32 0x7F800001 = .nan ∧ class32 0xFFFFFFFF = .nan ∧ sign32 0x7F800001 ≠ sign32 0xFFFFFFFF) ∧
    (class16 0x7C01 = .nan ∧ class16 0xFFFF = .nan ∧ sign16 0x7C01 ≠ sign16 0xFFFF) := by decide
theorem witness_SignPassesThrough : specParams.wf = true ∧ sign32 0x80000001 = 1 := by decide
theorem witness_EncodeIsTruncation :
    specParams.wf = true ∧ class32 0x3DCCCCCD ≠ .nan ∧ class32 0x3DCCCCCD ≠ .infinity ∧
    mag32 0x3DCCCCCD ≤ specParams.ovfLimit.toNat ∧ 0x38800000 ≤ mag32 0x3DCCCCCD ∧
    class32 0x337FFFFF ≠ .nan ∧ class32 0x337FFFFF ≠ .infinity ∧ mag32 0x337FFFFF < 0x38800000 := by decide
/-- Where the two range clauses meet: the last pattern below 2^−14, and 2^−14 itself. -/
theorem witness_EncodeIsTruncation_where_ranges_meet :
    class32 0x387FFFFF ≠ .nan ∧ class32 0x387FFFFF ≠ .infinity ∧ mag32 0x387FFFFF ≤ specParams.ovfLimit.toNat ∧
    mag32 0x387FFFFF < 0x38800000 ∧
    class32 0x38800000 ≠ .nan ∧ class32 0x38800000 ≠ .infinity ∧ mag32 0x38800000 ≤ specParams.ovfLimit.toNat ∧
    0x38800000 ≤ mag32 0x38800000 := by decide
/-- |x| < 2^−24, the last range clause: 2^−25 is such a value. -/
theorem witness_EncodeIsTruncation_flush :
    (val32 0x33000000).abs = some (((2 : ℚ) ^ (-25 : ℤ) : ℚ) : WithTop ℚ) ∧ (2 : ℚ) ^ (-25 : ℤ) < 2 ^ (-24 : ℤ) := by
  refine ⟨?_, by norm_num⟩
  rw [val32_abs (by decide), show units32 0x33000000 = 2 ^ 124 by decide]; norm_num
theorem witness_EncodeIsMonotone :
    mag32 0x387FFFFF ≤ mag32 0x38800000 ∧ mag32 0x38800000 ≤ specParams.ovfLimit.toNat := by decide
theorem witness_EncodeOutputSet : specParams.wf = true ∧ exp16 (codecEncode specParams 0x47800000) = 31 ∧
    codecEncode specParams 0x3F800000 ∉ [0x7C00#16, 0xFC00#16, 0x7FFF#16, 0xFFFF#16] ∧
    region specParams 0x7F800001 = .nan ∧ region specParams 0x47800000 = .overflow ∧ sign32 0x7F800001 = sign32 0x47800000 := by decide
theorem witness_ParametersMatterOnlyWhereOpen :
    specParams.wf = true ∧ Params.wf ⟨0x477FE000, 0x7F800001⟩ = true ∧
    ¬ (0x477FE001 ≤ mag32 0x477FE000 ∧ mag32 0x477FE000 ≤ 0x477FFFFF) ∧
    0x477FE001 ≤ mag32 0xC77FE001 ∧ mag32 0xC77FE001 ≤ 0x477FFFFF ∧ class16 0x7C00 ≠ .nan := by decide
theorem witness_DecodeIsExact_and_RoundTripLaw : specParams.wf = true ∧ class16 0x83FF ≠ .nan := by decide
theorem witness_RoundTripThroughRequests : State.reset.params.wf = true ∧ class16 0x8001 ≠ .nan := by decide
theorem witness_DecodeOutputSet : specParams.wf = true ∧ exp32 (codecDecode specParams 0x8000) = 0 ∧
    exp32 (codecDecode specParams 0x7C00) = 255 := by decide
theorem witness_DatapathStaysInRange_encoder : specParams.wf = true ∧
    (exp32 0x7F800001 = 255 ∧ frac32 0x7F800001 ≠ 0) ∧ (exp32 0xFF800000 = 255 ∧ frac32 0xFF800000 = 0) ∧
    (exp32 0x47800000 ≠ 255 ∧ specParams.ovfLimit.toNat < mag32 0x47800000) ∧
    mag32 0x387FFFFF < 0x38800000 ∧ (mag32 0x337FFFFF < 0x38800000 ∧ 113 - exp32 0x337FFFFF = 11) ∧
    (mag32 0x00000001 < 0x38800000 ∧ 113 - exp32 0x00000001 = 113) ∧
    (0x38800000 ≤ mag32 0x38800000 ∧ mag32 0x38800000 ≤ specParams.ovfLimit.toNat) ∧
    (0x38800000 ≤ mag32 0x477FFFFF ∧ mag32 0x477FFFFF ≤ specParams.ovfLimit.toNat) := by decide
theorem witness_DatapathStaysInRange_decoder :
    (exp16 0x7C00 = 31 ∧ frac16 0x7C00 = 0) ∧ (exp16 0x7C01 = 31 ∧ frac16 0x7C01 ≠ 0) ∧ (exp16 0x8000 = 0 ∧ frac16 0x8000 = 0) ∧
    (exp16 0x0001 = 0 ∧ frac16 0x0001 ≠ 0) ∧ (exp16 0x03FF = 0 ∧ frac16 0x03FF ≠ 0) ∧
    (1 ≤ exp16 0x0400 ∧ exp16 0x0400 ≤ 30) ∧ (1 ≤ exp16 0x7BFF ∧ exp16 0x7BFF ≤ 30) := by decide
theorem witness_RequestDrivesExactlyOneUnit :
    (0x03F800000 : Request).getLsbD 32 = false ∧ (0x1DEAD3C00 : Request).getLsbD 32 = true := by decide
theorem witness_IgnoredBitsNeverMatter : (0x1DEAD3C00 : Request).getLsbD 32 = true ∧ (0x100003C00 : Request).getLsbD 32 = true ∧
    (0x1DEAD3C00 : Request).extractLsb' 0 16 = (0x100003C00 : Request).extractLsb' 0 16 := by decide
theorem witness_OutputsFollowInputsAtEveryMoment :
    (driveEnc 0x3F800000 State.reset).encIn = Lines.known 0x3F800000 ∧ (driveDec 0x3C00 State.reset).decIn = Lines.known 0x3C00 := by
  decide
theorem witness_PortOperandIsEvaluated : (asking (.enc (Lines.known 0x3F800000)) []).pending = [.enc (Lines.known 0x3F800000)] ∧
    (asking (.dec (Lines.known 0x3C00)) []).pending = [.dec (Lines.known 0x3C00)] := by decide
theorem witness_StepStopsOnlyOnUndrivenInput :
    (∀ st ∈ (asking (.dec (Lines.known 0xFFFF)) []).pending.head?, st.driven = true) ∧
    (∃ st ∈ (asking (.dec ⟨0, 1⟩) []).pending.head?, st.driven = false) :=
  ⟨by intro st h; cases h; decide, ⟨_, rfl, by decide⟩⟩
/-- The same statement with nothing pending (log entry 5). -/
theorem witness_StepStopsOnlyOnUndrivenInput_nothing_pending : ∀ st ∈ State.reset.pending.head?, st.driven = true := by
  intro st h; cases h
theorem witness_IdleStepChangesNothing : State.reset.pending = [] := rfl
theorem witness_StepConsumesAndAppends : ∃ t, step (asking (.request (Lines.known 0x03F800000)) []) = .next t ∧
    (asking (.request (Lines.known 0x03F800000)) []).pending.head? = some (.request (Lines.known 0x03F800000)) := ⟨_, rfl, rfl⟩
theorem witness_AnswersDependOnTheOperandAlone :
    (asking (.enc (Lines.known 1)) []).params = (driveDec 7 (asking (.enc (Lines.known 1)) [.dec (Lines.floating 16)])).params ∧
    (asking (.enc (Lines.known 1)) []).pending = .enc (Lines.known 1) :: [] ∧
    (driveDec 7 (asking (.enc (Lines.known 1)) [.dec (Lines.floating 16)])).pending =
      .enc (Lines.known 1) :: [.dec (Lines.floating 16)] := by decide
theorem witness_RepeatedEvaluationAnswersAlike : (asking (.both (Lines.known 1) (Lines.known 2)) [.both (Lines.known 1) (Lines.known 2)]).pending =
    .both (Lines.known 1) (Lines.known 2) :: .both (Lines.known 1) (Lines.known 2) :: [] ∧
    Stimulus.driven (.both (Lines.known 1) (Lines.known 2)) = true := by decide
theorem witness_StepKeepsEveryAnswerRight : (asking (.request (Lines.known 0x03F800000)) []).Inv ∧
    ∃ t, step (asking (.request (Lines.known 0x03F800000)) []) = .next t :=
  ⟨⟨by decide, by intro e he; cases he⟩, _, rfl⟩
theorem witness_RunAnswersEverythingAsked : (asking (.request (Lines.known 0x100003555)) [.enc (Lines.known 0x3EAAA000)]).Safe := by
  unfold State.Safe; decide
theorem witness_OrderOfEvaluationsDoesNotMatter :
    List.Perm [Stimulus.enc (Lines.known 1), .dec (Lines.known 2)] [.dec (Lines.known 2), .enc (Lines.known 1)] ∧
    ∀ st ∈ [Stimulus.enc (Lines.known 1), .dec (Lines.known 2)], st.driven = true :=
  ⟨List.Perm.swap _ _ _, by decide⟩
theorem witness_DecimalTextIsReadExactly : ([2] : List (Fin 10)) ≠ [] ∧ ([5] : List (Fin 10)) ≠ [] := by decide
end

/-! What the state holds after power-up, what an instruction and a step keep, and where the open parameters and the canonical
NaNs show (spec R7, R8, R13, R30, R35, R93). -/

namespace Sys2Proof.Machine

/-- Undriven lines show nothing (R94). -/
@[simp] theorem readLines_floating {w : Nat} [NeZero w] : readLines (Lines.floating w) = none := by
  have h : BitVec.allOnes w ≠ 0#w := by
    intro e
    have hbit := congrArg (BitVec.getLsbD · 0) e
    simp [NeZero.pos w] at hbit
  simp [readLines, Lines.floating, h]

/-- Settles O40: the outputs are those of undriven lines. -/
theorem resetHoldsOnlyTheParameters : Obligations.ResetHoldsOnlyTheParameters := by
  refine ⟨rfl, rfl, rfl, rfl, ?_, ?_, ?_⟩
  · simp [State.encOut, State.reset]
  · simp [State.decOut, State.reset]
  · simp [State.r, State.reset]

/-- Settles O46: the spec values are in range, and nothing has been recorded that could be wrong. -/
theorem invariantHoldsAtReset : Obligations.InvariantHoldsAtReset :=
  ⟨specParams_wf, fun _ he => absurd he List.not_mem_nil⟩

/-- Every evaluation a stimulus asks for is recorded with the result of its own operand (R30). -/
theorem answers_right (p : Params) (st : Stimulus) : ∀ e ∈ st.answers p, e.right p := by
  cases st <;> simp [Stimulus.answers, Evaluation.right]

/-- Settles O47: a step adds only right answers to a record of right answers, under the same parameters. -/
theorem stepKeepsEveryAnswerRight : Obligations.StepKeepsEveryAnswerRight := by
  rintro s t ⟨hwf, hright⟩ hstep
  obtain ⟨-, rfl⟩ | ⟨st, rest, -, -, -, hserved, hparams⟩ := step_cases hstep
  · exact ⟨hwf, hright⟩
  · rw [State.Inv, hparams, hserved]
    refine ⟨hwf, fun e he => ?_⟩
    rcases List.mem_append.1 he with hold | hnew
    · exact hright e hold
    · exact answers_right s.params st e hnew

/-- Settles O43: by the two things a step that answers can have done. -/
theorem stepConsumesAndAppends : Obligations.StepConsumesAndAppends := by
  intro s t hstep
  obtain ⟨hnil, rfl⟩ | ⟨st, rest, hcons, -, hpending, hserved, hparams⟩ := step_cases hstep
  · simp [hnil]
  · refine ⟨by simp [hcons, hpending], hserved ▸ List.prefix_append _ _, hparams, fun l hl => ?_⟩
    obtain rfl : st = .request l := by simpa [hcons] using hl
    simp [hserved, Stimulus.answers]

/-- R58, R41: `EncodeF32ToF16` answers in every state, with the next state given whole. -/
theorem exec_encodeF32ToF16 (x : F32) (s : State) :
    exec (.encodeF32ToF16 x) s = .next (s.encodeAnswered x (encResult (codecEncode s.params x))) := rfl

/-- R66, R41: `DecodeF16ToF32` answers in every state, with the next state given whole. -/
theorem exec_decodeF16ToF32 (ignored : BitVec 16) (h : F16) (s : State) :
    exec (.decodeF16ToF32 ignored h) s = .next (s.decodeAnswered ignored h (decResult (codecDecode s.params h))) := rfl

/-- `dec_out` is a function of the parameters and `dec_in` (R89), and an encoder request writes neither. -/
@[simp] theorem encodeAnswered_decOut (s : State) (x : F32) (r : BitVec 32) : (s.encodeAnswered x r).decOut = s.decOut := rfl

/-- `enc_out` is a function of the parameters and `enc_in` (R89), and a decoder request writes neither. -/
@[simp] theorem decodeAnswered_encOut (s : State) (g : BitVec 16) (h : F16) (r : BitVec 32) :
    (s.decodeAnswered g h r).encOut = s.encOut := rfl

/-- Settles O36: each instruction's next state, field by field. -/
theorem instructionFrame : Obligations.InstructionFrame := by
  intro i s
  cases i with
  | encodeF32ToF16 x =>
    refine ⟨_, exec_encodeF32ToF16 x s, rfl, rfl, rfl, List.prefix_append _ _, List.length_append, ?_, nofun⟩
    rintro _ ⟨⟩
    exact ⟨rfl, rfl, encodeAnswered_decOut ..⟩
  | decodeF16ToF32 g h =>
    refine ⟨_, exec_decodeF16ToF32 g h s, rfl, rfl, rfl, List.prefix_append _ _, List.length_append, nofun, ?_⟩
    rintro _ _ ⟨⟩
    exact ⟨rfl, rfl, decodeAnswered_encOut ..⟩

/-- The NaN row of R49, for either format. -/
theorem categoryOf_eq_nan_iff {f : Format} (hf : f.expMax ≠ 0) (ex fr : Nat) :
    categoryOf f ex fr = .nan ↔ ex = f.expMax ∧ fr ≠ 0 := by
  unfold categoryOf
  by_cases h0 : ex = 0
  · by_cases hfr : fr = 0 <;> simp [h0, hfr, hf.symm]
  · by_cases hmax : ex = f.expMax <;> by_cases hfr : fr = 0 <;> simp [h0, hmax, hfr, hf]

theorem class32_eq_nan_iff (x : F32) : class32 x = .nan ↔ exp32 x = 255 ∧ frac32 x ≠ 0 :=
  categoryOf_eq_nan_iff (f := binary32) (by decide) _ _

theorem class16_eq_nan_iff (h : F16) : class16 h = .nan ↔ exp16 h = 31 ∧ frac16 h ≠ 0 :=
  categoryOf_eq_nan_iff (f := binary16) (by decide) _ _

/-- `P_OVF_LIMIT` enters the encoder by one test alone (R61). -/
theorem codecEncode_congr {p q : Params} {x : F32} (h : mag32 x > p.ovfLimit.toNat ↔ mag32 x > q.ovfLimit.toNat) :
    codecEncode p x = codecEncode q x := by
  simp only [codecEncode, h]

/-- Outside the open band a magnitude is above every threshold in range, or above none (R7). -/
theorem ovfLimit_lt_iff_of_not_band {p : Params} (hp : p.wf = true) {m : Nat} (hm : ¬ (0x477FE001 ≤ m ∧ m ≤ 0x477FFFFF)) :
    m > p.ovfLimit.toNat ↔ m > 0x477FFFFF := by
  obtain ⟨hl, hu⟩ := wf_ovfLimit hp
  omega

/-- The magnitudes of the open band have exponent field 142 and the top 10 fraction bits all ones. -/
theorem fields_of_band {x : F32} (hl : 0x477FE001 ≤ mag32 x) (hu : mag32 x ≤ 0x477FFFFF) :
    exp32 x = 142 ∧ frac32 x / 2 ^ 13 = 0x3FF := by
  have hf := frac32_lt x
  have hsplit := mag32_split x
  omega

/-- Inside the open band the result is the largest finite magnitude or the clamp, by the threshold (R61, R63). -/
theorem mag16_codecEncode_of_band {p : Params} (hp : p.wf = true) {x : F32} (hl : 0x477FE001 ≤ mag32 x)
    (hu : mag32 x ≤ 0x477FFFFF) : mag16 (codecEncode p x) = if mag32 x ≤ p.ovfLimit.toNat then 0x7BFF else 0x7FFF := by
  obtain ⟨hexp, hfrac⟩ := fields_of_band hl hu
  obtain ⟨v, hv, heq, hcases⟩ := codecEncode_cases hp x
  rw [heq, mag16_pack16 (sign32_lt x) hv]
  rcases hcases with ⟨hnan, -⟩ | ⟨hinf, -⟩ | ⟨-, hover, rfl⟩ | ⟨hunder, -⟩ | ⟨-, -, -, hnormal, rfl⟩
  · omega
  · omega
  · rw [if_neg (by omega)]
  · omega
  · rw [if_pos hnormal, hexp, hfrac]; rfl

/-- `P_DEC_NAN` enters the decoder on the NaN path alone (R68). -/
theorem codecDecode_congr_of_not_nan (p q : Params) {h : F16} (hn : class16 h ≠ .nan) : codecDecode p h = codecDecode q h := by
  rw [Ne, class16_eq_nan_iff] at hn
  simp only [codecDecode, if_neg hn]

/-- Settles O27: outside the band the parameter's one test has one outcome; inside it chooses between two results. -/
theorem parametersMatterOnlyWhereOpen : Obligations.ParametersMatterOnlyWhereOpen := by
  refine ⟨fun p q x hp hq hband => codecEncode_congr ?_, fun p x hp => mag16_codecEncode_of_band hp,
    fun p q h => codecDecode_congr_of_not_nan p q⟩
  rw [ovfLimit_lt_iff_of_not_band hp hband, ovfLimit_lt_iff_of_not_band hq hband]

/-- R59: every binary32 NaN encodes to the canonical NaN of its sign. -/
theorem codecEncode_of_nan (p : Params) {x : F32} (hx : class32 x = .nan) : codecEncode p x = canonicalNan16 (sign32 x) :=
  if_pos ((class32_eq_nan_iff x).1 hx)

/-- R68: every binary16 NaN decodes to the canonical NaN of its sign. -/
theorem codecDecode_of_nan (p : Params) {h : F16} (hh : class16 h = .nan) : codecDecode p h = canonicalNan32 p (sign16 h) := by
  have hn := (class16_eq_nan_iff h).1 hh
  rw [codecDecode, if_neg (fun hinf => hn.2 hinf.2), if_pos hn]

theorem mag16_canonicalNan16 {s : Nat} (hs : s < 2) : mag16 (canonicalNan16 s) = 0x7FFF :=
  mag16_pack16 hs (by decide)

theorem mag32_canonicalNan32 (p : Params) {s : Nat} (hs : s < 2) : mag32 (canonicalNan32 p s) = p.decNan.toNat :=
  mag32_pack32 hs p.decNan.isLt

theorem class16_canonicalNan16 {s : Nat} (hs : s < 2) : class16 (canonicalNan16 s) = .nan := by
  rw [class16_eq_nan_iff, canonicalNan16, exp16_pack16 hs (by decide), frac16_pack16 hs (by decide)]
  decide

theorem class32_canonicalNan32 {p : Params} (hp : p.wf = true) {s : Nat} (hs : s < 2) : class32 (canonicalNan32 p s) = .nan := by
  obtain ⟨hexp, hfrac, hlt⟩ := wf_decNan hp
  rw [class32_eq_nan_iff, canonicalNan32, exp32_pack32 hs hlt, frac32_pack32 hs hlt]
  exact ⟨hexp, hfrac.ne'⟩

/-- The encoder's canonical NaN shows its sign, so the two signs have two patterns. -/
theorem canonicalNan16_inj {s t : Nat} (hs : s < 2) (ht : t < 2) : canonicalNan16 s = canonicalNan16 t ↔ s = t := by
  refine ⟨fun e => ?_, congrArg _⟩
  have hsign := congrArg sign16 e
  rwa [canonicalNan16, canonicalNan16, sign16_pack16 hs (by decide), sign16_pack16 ht (by decide)] at hsign

/-- The decoder's canonical NaN shows its sign, so the two signs have two patterns. -/
theorem canonicalNan32_inj (p : Params) {s t : Nat} (hs : s < 2) (ht : t < 2) :
    canonicalNan32 p s = canonicalNan32 p t ↔ s = t := by
  refine ⟨fun e => ?_, congrArg _⟩
  have hsign := congrArg sign32 e
  rwa [canonicalNan32, canonicalNan32, sign32_pack32 hs p.decNan.isLt, sign32_pack32 ht p.decNan.isLt] at hsign

/-- Settles O54: both operands give the canonical NaN of their sign, of which only the sign varies. -/
theorem canonicalNanIsFixedExceptForItsSign : Obligations.CanonicalNanIsFixedExceptForItsSign := by
  constructor
  · intro p x y hx hy
    rw [codecEncode_of_nan p hx, codecEncode_of_nan p hy, mag16_canonicalNan16 (sign32_lt x), mag16_canonicalNan16 (sign32_lt y)]
    exact ⟨rfl, class16_canonicalNan16 (sign32_lt x), rfl, canonicalNan16_inj (sign32_lt x) (sign32_lt y)⟩
  · intro p g h hp hg hh
    rw [codecDecode_of_nan p hg, codecDecode_of_nan p hh, mag32_canonicalNan32 p (sign16_lt g), mag32_canonicalNan32 p (sign16_lt h)]
    exact ⟨rfl, class32_canonicalNan32 hp (sign16_lt g), rfl, canonicalNan32_inj p (sign16_lt g) (sign16_lt h)⟩

end Sys2Proof.Machine

/-! What a step answers depends on the parameters and its stimulus alone (spec R23). -/

namespace Sys2Proof.Machine

/-- Which undriven port a refusal names is read off the stimulus, whatever the state (R23, R94). -/
theorem serve_undriven_congr {st : Stimulus} (hd : st.driven = false) (s s' : State) : serve st s = serve st s' := by
  cases st with
  | request l => simp [serve, serveRequest, readLines_of_not_driven (l := l) hd]
  | enc l => simp [serve, serveEnc, readLines_of_not_driven (l := l) hd]
  | dec l => simp [serve, serveDec, readLines_of_not_driven (l := l) hd]
  | both le ld =>
    cases hle : linesDriven le with
    | false => simp [serve, serveBoth, readLines_of_not_driven hle]
    | true =>
      have hld : linesDriven ld = false := by simpa [Stimulus.driven, hle] using hd
      simp [serve, serveBoth, readLines_of_driven hle, readLines_of_not_driven hld]

/-- A step with something asked serves the first stimulus, with the others left to come (R93). -/
theorem step_of_pending_cons {s : State} {st : Stimulus} {rest : List Stimulus} (hs : s.pending = st :: rest) :
    step s = serve st (setPending rest s) := by
  simp [step, hs]

/-- Settles O44: a driven stimulus is answered by the parameters and its own operands; an undriven one is refused under the
name the stimulus itself determines. -/
theorem answersDependOnTheOperandAlone : Obligations.AnswersDependOnTheOperandAlone := by
  intro s s' st rest rest' hparams hs hs'
  cases hd : st.driven with
  | true =>
    obtain ⟨t, hstep, -, hserved, -⟩ := step_driven hs hd
    obtain ⟨t', hstep', -, hserved', -⟩ := step_driven hs' hd
    exact .inl ⟨t, t', st.answers s.params, hstep, hstep', hserved, hparams ▸ hserved'⟩
  | false =>
    obtain ⟨port, hrefused⟩ := serve_undriven hd (setPending rest s)
    refine .inr ⟨.undrivenInput port, (step_of_pending_cons hs).trans hrefused, ?_⟩
    rw [step_of_pending_cons hs', serve_undriven_congr hd _ (setPending rest s), hrefused]

end Sys2Proof.Machine

/-! Repeating an evaluation, and asking the same evaluations in another order (spec R28, R30). -/

namespace Sys2Proof.Machine

/-- A request whose lines are driven executes the instruction its word decodes to (R37). -/
theorem serve_request_of_driven {l : Lines 33} (h : linesDriven l = true) (s : State) :
    serve (.request l) s = exec (decode l.value) (driveReq l.value s) := by
  simp [serve, serveRequest, readLines_of_driven h]

/-- Driven lines on `enc_in` are one evaluation of ENC (R36). -/
theorem serve_enc_of_driven {l : Lines 32} (h : linesDriven l = true) (s : State) :
    serve (.enc l) s = .next (evalEnc l.value s) := by
  simp [serve, serveEnc, readLines_of_driven h]

/-- Driven lines on `dec_in` are one evaluation of DEC (R36). -/
theorem serve_dec_of_driven {l : Lines 16} (h : linesDriven l = true) (s : State) :
    serve (.dec l) s = .next (evalDec l.value s) := by
  simp [serve, serveDec, readLines_of_driven h]

/-- Driven lines on both ports are one evaluation of each unit (R85). -/
theorem serve_both_of_driven {le : Lines 32} {ld : Lines 16} (hle : linesDriven le = true) (hld : linesDriven ld = true) (s : State) :
    serve (.both le ld) s = .next (evalDec ld.value (evalEnc le.value s)) := by
  simp [serve, serveBoth, readLines_of_driven hle, readLines_of_driven hld]

/-- An instruction repeated, on the same request lines, whatever is planned next: its port already holds the operand, so only the
record grows (R28). -/
theorem exec_again {i : Instr} {w : Request} {s t : State} (h : exec i (driveReq w s) = .next t) (rest : List Stimulus) :
    exec i (driveReq w (setPending rest t)) =
      .next { t with pending := rest, served := t.served ++ [.request i (respond t.params i)] } := by
  cases i with
  | encodeF32ToF16 x => cases h; rfl
  | decodeF16ToF32 ignored g => cases h; rfl

/-- A stimulus served again, whatever is planned next: its ports already show its operands, so only the record grows (R28). -/
theorem serve_again {st : Stimulus} (hd : st.driven = true) {s t : State} (h : serve st s = .next t) (rest : List Stimulus) :
    serve st (setPending rest t) = .next { t with pending := rest, served := t.served ++ st.answers t.params } := by
  cases st with
  | request l =>
    rw [serve_request_of_driven hd] at h ⊢
    exact exec_again h rest
  | enc l =>
    rw [serve_enc_of_driven hd] at h ⊢
    cases h; rfl
  | dec l =>
    rw [serve_dec_of_driven hd] at h ⊢
    cases h; rfl
  | both le ld =>
    obtain ⟨hle, hld⟩ := Bool.and_eq_true_iff.1 hd
    rw [serve_both_of_driven hle hld] at h ⊢
    cases h
    simp [evalEnc, evalDec, record, driveEnc, driveDec, setPending, Stimulus.answers]

/-- Settles O45: the second step serves the stimulus where the first has left its operands on the ports. -/
theorem repeatedEvaluationAnswersAlike : Obligations.RepeatedEvaluationAnswersAlike := by
  intro s st rest hs hd
  obtain ⟨t, hstep, hpending, hserved, hparams⟩ := step_driven hs hd
  refine ⟨t, _, st.answers s.params, hstep, ?_, hserved, rfl⟩
  rw [step_of_pending_cons hs] at hstep
  rw [step_of_pending_cons hpending, serve_again hd hstep rest, hparams]

/-- One step of a longer run (R93). -/
theorem run_succ_of_step {s t : State} (h : step s = .next t) (k : Nat) :
    Sys2Proof.core.run (k + 1) s = Sys2Proof.core.run k t := by
  have hcore : Sys2Proof.core.step s = .next t := h
  simp only [Host.Core.run, hcore]

/-- A run over driven stimuli ends with nothing left to do, the parameters as they were, and the answers of every stimulus appended
to the record in turn (R93). -/
theorem run_driven {ps : List Stimulus} (hd : ∀ st ∈ ps, st.driven = true) {s : State} (hs : s.pending = ps) :
    ∃ t : State, Sys2Proof.core.run ps.length s = .next t ∧ t.pending = [] ∧ t.params = s.params ∧
      t.served = s.served ++ ps.flatMap (Stimulus.answers s.params) := by
  induction ps generalizing s with
  | nil => exact ⟨s, rfl, hs, rfl, (List.append_nil _).symm⟩
  | cons st rest ih =>
    obtain ⟨hst, hrest⟩ := List.forall_mem_cons.1 hd
    obtain ⟨s', hstep, hpending, hserved, hparams⟩ := step_driven hs hst
    obtain ⟨t, hrun, hdone, hparams', hserved'⟩ := ih hrest hpending
    refine ⟨t, (run_succ_of_step hstep _).trans hrun, hdone, hparams'.trans hparams, ?_⟩
    rw [hserved', hserved, hparams, List.flatMap_cons, List.append_assoc]

/-- Settles O49: each run records every stimulus's own answers, so reordering the stimuli reorders the record. -/
theorem orderOfEvaluationsDoesNotMatter : Obligations.OrderOfEvaluationsDoesNotMatter := by
  intro s ps qs hperm hd
  obtain ⟨t, hrun, -, -, hserved⟩ := run_driven hd (s := { s with pending := ps }) rfl
  obtain ⟨u, hrun', -, -, hserved'⟩ := run_driven (fun st h => hd st (hperm.mem_iff.2 h)) (s := { s with pending := qs }) rfl
  refine ⟨t, u, hrun, hrun', ?_⟩
  rw [hserved, hserved']
  exact (hperm.flatMap_right _).append_left _

end Sys2Proof.Machine

/-! The request word and the instruction it carries: decoder and encoder are inverse, and the opcode table's rows partition the
words (spec R37, R38, R43, R44). -/

namespace Sys2Proof

/-- `op = 0`: the whole operand bus is the encoder's operand (R38, R39). -/
theorem decode_of_op_false {w : Request} (h : w.getLsbD 32 = false) :
    decode w = .encodeF32ToF16 (w.extractLsb' 0 32) := by
  rw [decode, h]; rfl

/-- `op = 1`: the low half of the operand bus is the decoder's operand, the high half is ignored (R38, R40). -/
theorem decode_of_op_true {w : Request} (h : w.getLsbD 32 = true) :
    decode w = .decodeF16ToF32 (w.extractLsb' 16 16) (w.extractLsb' 0 16) := by
  rw [decode, h]; rfl

/-- R37, R38: no operand bit is lost by writing an instruction as a request word. -/
@[simp] theorem decode_encode (i : Instr) : decode (encode i) = i := by
  cases i with
  | encodeF32ToF16 x =>
    have hx : (encode (.encodeF32ToF16 x)).extractLsb' 0 32 = x := by
      apply BitVec.eq_of_toNat_eq
      rw [BitVec.extractLsb'_toNat, encode_encodeF32ToF16_toNat]
      exact Nat.mod_eq_of_lt x.isLt
    rw [decode_of_op_false (op_encodeF32ToF16 x), hx]
  | decodeF16ToF32 ignored h =>
    have hlo : (encode (.decodeF16ToF32 ignored h)).extractLsb' 0 16 = h := by
      apply BitVec.eq_of_toNat_eq
      rw [BitVec.extractLsb'_toNat, encode_decodeF16ToF32_toNat, Nat.shiftRight_zero]
      omega
    have hhi : (encode (.decodeF16ToF32 ignored h)).extractLsb' 16 16 = ignored := by
      apply BitVec.eq_of_toNat_eq
      rw [BitVec.extractLsb'_toNat, encode_decodeF16ToF32_toNat, Nat.shiftRight_eq_div_pow]
      omega
    rw [decode_of_op_true (op_decodeF16ToF32 ignored h), hlo, hhi]

/-- Settles O2: each operation's `op` bit selects its own form, and the operand fields are read where they were put. -/
theorem decodeOfEncodeIsTheInstruction : Obligations.DecodeOfEncodeIsTheInstruction :=
  decode_encode

/-- R37, R38, R44: no bit of a request word is lost by reading it as an instruction. -/
@[simp] theorem encode_decode (w : Request) : encode (decode w) = w := by
  have hw := w.isLt
  apply BitVec.eq_of_toNat_eq
  cases hop : w.getLsbD 32 with
  | false =>
    have hlt : w.toNat < 2 ^ 32 := by simpa only [op_eq, decide_eq_false_iff_not, Nat.not_le] using hop
    rw [decode_of_op_false hop, encode_encodeF32ToF16_toNat, BitVec.extractLsb'_toNat, Nat.shiftRight_zero]
    omega
  | true =>
    have hge : 2 ^ 32 ≤ w.toNat := by simpa only [op_eq, decide_eq_true_eq] using hop
    rw [decode_of_op_true hop, encode_decodeF16ToF32_toNat, BitVec.extractLsb'_toNat, BitVec.extractLsb'_toNat,
      Nat.shiftRight_zero, Nat.shiftRight_eq_div_pow]
    omega

/-- Settles O3: by the `op` bit, reassembling the fields the decoder takes apart. -/
theorem encodeOfDecodeIsTheWord : Obligations.EncodeOfDecodeIsTheWord :=
  encode_decode

/-- R38, R44: the rows that cover a word are the one row of the instruction it decodes to. -/
theorem filter_covers_opcodeTable (w : Request) :
    opcodeTable.filter (fun row => row.covers w) = [rowOf (decode w)] := by
  cases hop : w.getLsbD 32 with
  | false =>
    rw [decode_of_op_false hop, opcodeTable, List.filter_cons_of_pos, List.filter_cons_of_neg]
    · rfl
    · rw [covers_rowDecodeF16ToF32, hop]; decide
    · rw [covers_rowEncodeF32ToF16, hop]; decide
  | true =>
    rw [decode_of_op_true hop, opcodeTable, List.filter_cons_of_neg, List.filter_cons_of_pos]
    · rfl
    · rw [covers_rowDecodeF16ToF32, hop]
    · rw [covers_rowEncodeF32ToF16, hop]; decide

/-- R44: a number below `2 ^ 33` is a request word. -/
theorem decodeWord_of_lt {n : Nat} (h : n < 2 ^ 33) : decodeWord n = .ok (decode (BitVec.ofNat 33 n)) :=
  if_pos h

/-- Log entry 8: any other number is turned away by name. -/
theorem decodeWord_of_ge {n : Nat} (h : 2 ^ 33 ≤ n) : decodeWord n = .error .widerThanARequest :=
  if_neg (Nat.not_lt.2 h)

/-- Settles O4: a number below `2 ^ 33` is the word of what it decodes to, and the word of an instruction is such a number. -/
theorem everyWordStandsInExactlyOneRow : Obligations.EveryWordStandsInExactlyOneRow := by
  refine ⟨filter_covers_opcodeTable, fun n => ⟨?_, fun hn => ⟨_, decodeWord_of_lt hn, ?_⟩⟩, fun n => decodeWord_of_ge⟩
  · rintro ⟨i, -, rfl⟩
    exact (encode i).isLt
  · rw [encode_decode, BitVec.toNat_ofNat, Nat.mod_eq_of_lt hn]

/-- Settles O1: each word's `op` bit and operand fields, read off. -/
theorem writtenWordsDecode : Obligations.WrittenWordsDecode := by
  unfold Obligations.WrittenWordsDecode
  decide

end Sys2Proof

/-! A request from its lines to its answer, and operands on the ports (spec R35 to R41, R85, R93). -/

namespace Sys2Proof.Machine

@[simp] theorem linesDriven_known {w : Nat} (v : BitVec w) : linesDriven (Lines.known v) = true := by
  simp [linesDriven, Lines.known]

/-- R36, R89: what `enc_out` shows while `enc_in` is driven. -/
theorem encOut_of_encIn_known {s : State} {x : F32} (h : s.encIn = Lines.known x) :
    s.encOut = some (codecEncode s.params x) := by
  simp [State.encOut, h]

/-- R36, R89: what `dec_out` shows while `dec_in` is driven. -/
theorem decOut_of_decIn_known {s : State} {h : F16} (hs : s.decIn = Lines.known h) :
    s.decOut = some (codecDecode s.params h) := by
  simp [State.decOut, hs]

/-- R37: what `r` shows while the request lines are driven. -/
theorem r_of_req_known {s : State} {w : Request} (h : s.req = Lines.known w) :
    s.r = some (respond s.params (decode w)) := by
  simp [State.r, h]

/-- Settles O5: driven lines are read as the word they show (R37). -/
theorem stepRunsTheDecodedRequest : Obligations.StepRunsTheDecodedRequest := by
  intro s w rest hs
  rw [step_of_pending_cons hs, serve_request_of_driven (linesDriven_known w)]
  rfl

/-- The decoder reads a table word from a number exactly when it is below `2 ^ 33` (R44, log entry 8). -/
theorem decodeTableWord_eq (nbits w : Nat) :
    decodeTableWord nbits w = if w < 2 ^ 33 then some (decode (BitVec.ofNat 33 w)) else none := by
  by_cases hw : w < 2 ^ 33
  · rw [decodeTableWord, decodeWord_of_lt hw, if_pos hw]
  · rw [decodeTableWord, decodeWord_of_ge (Nat.not_lt.1 hw), if_neg hw]

/-- A placed table word is served by the next step, from the state it was placed in (log entry 7). -/
theorem step_withFetchWord (s : State) (nbits w : Nat) :
    step (s.withFetchWord nbits w) = serveRequest (tableLines w) s := rfl

/-- Settles O6: the lines of a placed word are driven exactly when the decoder reads an instruction from it. -/
theorem placedTableWordRunsNext : Obligations.PlacedTableWordRunsNext := by
  intro s nbits w
  rw [decodeTableWord_eq, step_withFetchWord, serveRequest, tableLines]
  by_cases hw : w < 2 ^ 33
  · simp only [if_pos hw, readLines_known]
    refine ⟨?_, nofun⟩
    rintro _ ⟨⟩
    rw [encode_decode]
    rfl
  · simp only [if_neg hw, readLines_floating]
    exact ⟨nofun, fun _ => trivial⟩

/-- Settles O33: the `op` bit chooses the unit; the next state of that unit's instruction is known whole. -/
theorem requestDrivesExactlyOneUnit : Obligations.RequestDrivesExactlyOneUnit := by
  intro s w rest hs
  have hstep := stepRunsTheDecodedRequest s w rest hs
  cases hop : w.getLsbD 32 with
  | false =>
    have hdec := decode_of_op_false hop
    rw [hdec, exec_encodeF32ToF16] at hstep
    refine ⟨_, _, hstep, ?_, by rw [hdec]; rfl, rfl, rfl, rfl, fun _ => ⟨rfl, ?_, rfl, encodeAnswered_decOut ..⟩, nofun⟩
    · rw [r_of_req_known (w := w) rfl, hdec]; rfl
    · rw [encOut_of_encIn_known (x := w.extractLsb' 0 32) rfl]; rfl
  | true =>
    have hdec := decode_of_op_true hop
    rw [hdec, exec_decodeF16ToF32] at hstep
    refine ⟨_, _, hstep, ?_, by rw [hdec]; rfl, rfl, rfl, rfl, nofun, fun _ => ⟨rfl, ?_, rfl, decodeAnswered_encOut ..⟩⟩
    · rw [r_of_req_known (w := w) rfl, hdec]; rfl
    · rw [decOut_of_decIn_known (h := w.extractLsb' 0 16) rfl]; rfl

/-- Settles O34: the result of a decoder request is a function of its low operand half. -/
theorem ignoredBitsNeverMatter : Obligations.IgnoredBitsNeverMatter := by
  intro p v w hv hw hlow
  rw [decode_of_op_true hv, decode_of_op_true hw, hlow]
  rfl

/-- R41: the encoder's result word is the encoder's output as a number. -/
theorem encResult_toNat (out : F16) : (encResult out).toNat = out.toNat :=
  (BitVec.toNat_setWidth 32 out).trans (Nat.mod_eq_of_lt (out.isLt.trans (by decide)))

/-- R41: the low half of an encoder's result word is the encoder's output. -/
theorem encResult_low (out : F16) : (encResult out).extractLsb' 0 16 = out := by
  apply BitVec.eq_of_toNat_eq
  rw [BitVec.extractLsb'_toNat, encResult_toNat, Nat.shiftRight_zero, Nat.mod_eq_of_lt out.isLt]

/-- R41: the high half of an encoder's result word is 0. -/
theorem encResult_high (out : F16) : (encResult out).extractLsb' 16 16 = 0 := by
  apply BitVec.eq_of_toNat_eq
  rw [BitVec.extractLsb'_toNat, encResult_toNat, Nat.shiftRight_eq_div_pow, Nat.div_eq_of_lt out.isLt]
  rfl

/-- Settles O35: by the instruction, whose answer is assembled from its own unit's output. -/
theorem resultAssembly : Obligations.ResultAssembly := by
  intro s i
  obtain ⟨t, hexec, hserved, -⟩ := exec_next i s
  refine ⟨t, _, hexec, hserved, ?_, ?_⟩
  · rintro x rfl
    exact ⟨encResult_low _, encResult_high _⟩
  · rintro g h rfl
    rfl

/-- A step at a driven operand on `enc_in` is one evaluation of ENC (R36, R93). -/
theorem step_enc_known {s : State} {x : F32} {rest : List Stimulus} (hs : s.pending = .enc (Lines.known x) :: rest) :
    step s = .next (evalEnc x (setPending rest s)) := by
  rw [step_of_pending_cons hs, serve_enc_of_driven (linesDriven_known x)]
  rfl

/-- A step at a driven operand on `dec_in` is one evaluation of DEC (R36, R93). -/
theorem step_dec_known {s : State} {h : F16} {rest : List Stimulus} (hs : s.pending = .dec (Lines.known h) :: rest) :
    step s = .next (evalDec h (setPending rest s)) := by
  rw [step_of_pending_cons hs, serve_dec_of_driven (linesDriven_known h)]
  rfl

/-- A step at driven operands on both ports is one evaluation of each unit (R85). -/
theorem step_both_known {s : State} {x : F32} {h : F16} {rest : List Stimulus}
    (hs : s.pending = .both (Lines.known x) (Lines.known h) :: rest) :
    step s = .next (evalDec h (evalEnc x (setPending rest s))) := by
  rw [step_of_pending_cons hs, serve_both_of_driven (linesDriven_known x) (linesDriven_known h)]
  rfl

/-- Settles O38: each unit's evaluation leaves its operand on its own port, whose output follows it. -/
theorem portOperandIsEvaluated : Obligations.PortOperandIsEvaluated := by
  constructor
  · intro s x rest hs
    exact ⟨_, step_enc_known hs, encOut_of_encIn_known rfl, rfl⟩
  · intro s h rest hs
    exact ⟨_, step_dec_known hs, decOut_of_decIn_known rfl, rfl⟩

/-- Two steps that answer are a run of two (R93). -/
theorem run_two_of_steps {s t u : State} (hst : step s = .next t) (htu : step t = .next u) :
    Sys2Proof.core.run 2 s = .next u :=
  (run_succ_of_step hst 1).trans (run_succ_of_step htu 0)

/-- Settles O39: the two units write different ports and append one answer each, so either order gives the same state but for the
order of the two answers. -/
theorem bothUnitsAtOnceAreIndependent : Obligations.BothUnitsAtOnceAreIndependent := by
  intro s x h
  refine ⟨_, _, _, step_both_known rfl, run_two_of_steps (step_enc_known rfl) (step_dec_known rfl),
    run_two_of_steps (step_dec_known rfl) (step_enc_known rfl), rfl, rfl, ?_,
    encOut_of_encIn_known rfl, decOut_of_decIn_known rfl⟩
  simpa [evalEnc, evalDec] using (List.Perm.swap _ _ []).append_left s.served

end Sys2Proof.Machine

/-! The textual form: what is written is read back, and a decimal's text is the number it spells (spec R45, log entry 9). -/

namespace Sys2Proof.Machine

/-- A text that begins with `lead` leaves what follows it. -/
@[simp] theorem stripFront_append (lead cs : List Char) : stripFront lead (lead ++ cs) = some cs := by
  induction lead with
  | nil => simp [stripFront]
  | cons a lead ih => simp [stripFront, ih]

/-- The operand ends at a closing parenthesis that ends the text, whatever stands before it. -/
@[simp] theorem untilClose_append_close (cs : List Char) : untilClose (cs ++ [')']) = some cs := by
  induction cs with
  | nil => rfl
  | cons c rest ih =>
    obtain ⟨d, ds, hrest⟩ := List.exists_cons_of_ne_nil (List.append_ne_nil_of_right_ne_nil rest (List.cons_ne_nil ')' []))
    rw [List.cons_append, hrest, untilClose, ← hrest, ih, Option.map_some]
    exact nofun

/-- R45: a text of the encoder's form is a request for what its operand denotes. -/
theorem readText_encodeF32ToF16 (operand : List Char) :
    readText ("EncodeF32ToF16(".toList ++ (operand ++ [')'])) = (encoderOperand operand).map .encodeF32ToF16 := by
  simp only [readText, stripFront_append, untilClose_append_close]

/-- R45: a text of the decoder's form is a request for what its operand denotes, with the ignored bits 0 (log entry 9). -/
theorem readText_decodeF16ToF32 (operand : List Char) :
    readText ("DecodeF16ToF32(".toList ++ (operand ++ [')'])) = (decoderOperand operand).map (.decodeF16ToF32 0) := by
  have hother : stripFront "EncodeF32ToF16(".toList ("DecodeF16ToF32(".toList ++ (operand ++ [')'])) = none := rfl
  simp only [readText, hother, stripFront_append, untilClose_append_close]

theorem hexValue_hexDigit {d : Nat} (hd : d < 16) : hexValue (hexDigit d) = some d := by
  have hall : ∀ e : Fin 16, hexValue (hexDigit e) = some e.val := by decide
  exact hall ⟨d, hd⟩

/-- Digits are read from the left, each group after what the groups before it spell. -/
theorem readDigits_append (base : Nat) (digit : Char → Option Nat) (acc : Nat) (cs ds : List Char) :
    readDigits base digit acc (cs ++ ds) = (readDigits base digit acc cs).bind (readDigits base digit · ds) := by
  induction cs generalizing acc with
  | nil => rfl
  | cons c rest ih =>
    cases hc : digit c with
    | none => simp [readDigits, hc]
    | some d => simp [readDigits, hc, ih]

theorem length_writeHex (n v : Nat) : (writeHex n v).length = n := by
  induction n generalizing v with
  | zero => rfl
  | succ n ih => simp [writeHex, ih]

/-- The `n` digits written for `v` spell its remainder below `16 ^ n`. -/
theorem readDigits_writeHex (n v : Nat) : readDigits 16 hexValue 0 (writeHex n v) = some (v % 16 ^ n) := by
  induction n generalizing v with
  | zero => simp [writeHex, readDigits, Nat.mod_one]
  | succ n ih =>
    have hlast : v % 16 < 16 := Nat.mod_lt _ (by decide)
    rw [writeHex, readDigits_append, ih, Option.bind_some, readDigits, hexValue_hexDigit hlast, pow_succ',
      Nat.mod_mul, Nat.mul_comm, Nat.add_comm]
    rfl

/-- R45: hexadecimal operands are read back from what is written for them. -/
theorem readHex_writeHex {n v : Nat} (hv : v < 16 ^ n) : readHex n (writeHex n v) = some v := by
  rw [readHex, if_pos (length_writeHex n v), readDigits_writeHex, Nat.mod_eq_of_lt hv]

theorem encoderOperand_writeHex (x : F32) : encoderOperand ('0' :: 'x' :: writeHex 8 x.toNat) = .ok x := by
  have hx : readHex 8 (writeHex 8 x.toNat) = some x.toNat := readHex_writeHex x.isLt
  simp [encoderOperand, hx]

theorem decoderOperand_writeHex (h : F16) : decoderOperand ('0' :: 'x' :: writeHex 4 h.toNat) = .ok h := by
  have hh : readHex 4 (writeHex 4 h.toNat) = some h.toNat := readHex_writeHex h.isLt
  simp [decoderOperand, hh]

/-- Settles O50: the text is its operation's name around an operand, and the operand's hexadecimal digits are read back. -/
theorem textOfARequestReadsBack : Obligations.TextOfARequestReadsBack := by
  constructor
  · intro x
    have htext : writeText (.encodeF32ToF16 x) =
        "EncodeF32ToF16(".toList ++ ('0' :: 'x' :: writeHex 8 x.toNat ++ [')']) := rfl
    rw [htext, readText_encodeF32ToF16, encoderOperand_writeHex]
    rfl
  · intro g h
    have htext : writeText (.decodeF16ToF32 g h) =
        "DecodeF16ToF32(".toList ++ ('0' :: 'x' :: writeHex 4 h.toNat ++ [')']) := rfl
    rw [htext, readText_decodeF16ToF32, decoderOperand_writeHex]
    rfl

/-- Decimal digits as characters. -/
def decimalChars (ds : List (Fin 10)) : List Char := ds.map fun d => hexDigit d.val

@[simp] theorem decimalChars_cons (d : Fin 10) (ds : List (Fin 10)) :
    decimalChars (d :: ds) = hexDigit d.val :: decimalChars ds := rfl

@[simp] theorem decimalChars_append (ds es : List (Fin 10)) :
    decimalChars (ds ++ es) = decimalChars ds ++ decimalChars es := List.map_append ..

@[simp] theorem length_decimalChars (ds : List (Fin 10)) : (decimalChars ds).length = ds.length := List.length_map ..

/-- The statements write a list of digits as characters by way of the list of their numbers. -/
theorem map_hexDigit_eq_decimalChars (ds : List (Fin 10)) :
    ((do let d ← ds; pure d.val) : List Nat).map (fun d => hexDigit d) = decimalChars ds := by
  simp only [List.bind_eq_flatMap, List.pure_def, ← List.map_eq_flatMap, List.map_map]
  rfl

theorem decValue_hexDigit (d : Fin 10) : decValue (hexDigit d) = some d.val := by
  revert d; decide

/-- No digit is a mark that begins another form of operand, or the point. -/
theorem hexDigit_ne_mark (d : Fin 10) {c : Char} (hc : c ∈ ['.', '-', '+', 'x', 'I']) : hexDigit d ≠ c := by
  have hall : ∀ e : Fin 10, hexDigit e ∉ ['.', '-', '+', 'x', 'I'] := by decide
  exact fun h => hall d (h ▸ hc)

/-- Decimal digits spell, after `acc`, the number `Nat.ofDigits` gives them. -/
theorem readDigits_decimalChars (ds : List (Fin 10)) (acc : Nat) :
    readDigits 10 decValue acc (decimalChars ds) =
      some (acc * 10 ^ ds.length + Nat.ofDigits 10 (ds.reverse.map fun d => d.val)) := by
  induction ds generalizing acc with
  | nil => simp [decimalChars, readDigits]
  | cons d ds ih =>
    have hread : readDigits 10 decValue acc (decimalChars (d :: ds)) =
        readDigits 10 decValue (acc * 10 + d.val) (decimalChars ds) := by
      simp only [decimalChars_cons, readDigits, decValue_hexDigit]
    have hspell : Nat.ofDigits 10 ((d :: ds).reverse.map fun d => d.val) =
        Nat.ofDigits 10 (ds.reverse.map fun d => d.val) + 10 ^ ds.length * d.val := by
      simp [Nat.ofDigits_append]
    rw [hread, ih, hspell, List.length_cons]
    congr 1
    ring

/-- A decimal is split at its point. -/
theorem span_decimalChars_point (whole : List (Fin 10)) (rest : List Char) :
    (decimalChars whole ++ '.' :: rest).span (fun c => c ≠ '.') = (decimalChars whole, '.' :: rest) := by
  have hwhole : ∀ c ∈ decimalChars whole, decide (c ≠ '.') = true := by
    intro c hc
    obtain ⟨d, -, rfl⟩ := List.mem_map.1 hc
    exact decide_eq_true (hexDigit_ne_mark d (by decide))
  rw [List.span_eq_takeWhile_dropWhile, List.takeWhile_append_of_pos hwhole, List.dropWhile_append_of_pos hwhole]
  simp

/-- R45: digits, a point and digits spell a number of units of the last place. -/
theorem readDecimal_point {whole part : List (Fin 10)} (hwhole : whole ≠ []) (hpart : part ≠ []) :
    readDecimal (decimalChars whole ++ '.' :: decimalChars part) =
      some (Nat.ofDigits 10 ((whole ++ part).reverse.map fun d => d.val), part.length) := by
  have hdigits := readDigits_decimalChars (whole ++ part) 0
  rw [decimalChars_append, Nat.zero_mul, Nat.zero_add] at hdigits
  obtain ⟨w, ws, rfl⟩ := List.exists_cons_of_ne_nil hwhole
  obtain ⟨p, ps, rfl⟩ := List.exists_cons_of_ne_nil hpart
  rw [readDecimal, span_decimalChars_point]
  simp only [decimalChars_cons, List.length_cons, length_decimalChars] at hdigits ⊢
  rw [hdigits, Option.map_some]

/-- R45: a decimal is the pattern of exactly its value, or is refused. -/
theorem decimalOperand_of_readDecimal {cs : List Char} {n k : Nat} (h : readDecimal cs = some (n, k)) (negative : Bool) :
    decimalOperand negative cs = (exactF32 negative n k).elim (.error .inexactDecimal) .ok := by
  -- An opaque name for the conversion, so that reducing the match computes nothing of its 2^149.
  obtain ⟨f, hf⟩ : ∃ f, exactF32 negative = f := ⟨_, rfl⟩
  rw [decimalOperand, hf]
  simp only [h]
  cases f n k <;> rfl

/-- After a `-`, what begins with a digit is a decimal and no `Infinity`. -/
theorem encoderOperand_minus_digit (d : Fin 10) (rest : List Char) :
    encoderOperand ('-' :: hexDigit d :: rest) = decimalOperand true (hexDigit d :: rest) := by
  have hinf : hexDigit d :: rest ≠ "Infinity".toList :=
    fun h => hexDigit_ne_mark d (by decide) (List.cons.inj h).1
  exact if_neg hinf

/-- What begins with a digit that no `x` follows is an unsigned decimal. -/
theorem encoderOperand_digit (d : Fin 10) {rest : List Char} (hx : rest.head? ≠ some 'x') :
    encoderOperand (hexDigit d :: rest) = decimalOperand false (hexDigit d :: rest) := by
  unfold encoderOperand
  split
  · next h => exact absurd (by rw [(List.cons.inj h).2]; rfl) hx
  · next h => exact absurd (List.cons.inj h).1 (hexDigit_ne_mark d (by decide))
  · next h => exact absurd (List.cons.inj h).1 (hexDigit_ne_mark d (by decide))
  · rfl

/-- In a decimal no `x` follows the first digit. -/
theorem head?_decimalChars_point (ds : List (Fin 10)) (rest : List Char) :
    (decimalChars ds ++ '.' :: rest).head? ≠ some 'x' := by
  cases ds with
  | nil => exact fun h => absurd (Option.some.inj h) (by decide)
  | cons d ds => exact fun h => hexDigit_ne_mark d (by decide) (Option.some.inj h)

/-- R45: an optional `-` before digits and a point makes a signed decimal. -/
theorem encoderOperand_decimal (negative : Bool) {whole : List (Fin 10)} (hwhole : whole ≠ []) (rest : List Char) :
    encoderOperand ((if negative then ['-'] else []) ++ (decimalChars whole ++ '.' :: rest)) =
      decimalOperand negative (decimalChars whole ++ '.' :: rest) := by
  obtain ⟨d, ds, rfl⟩ := List.exists_cons_of_ne_nil hwhole
  cases negative with
  | false => exact encoderOperand_digit d (head?_decimalChars_point ds rest)
  | true => exact encoderOperand_minus_digit d _

/-- The text of a decimal operand, regrouped as an operand between an operation's name and a closing parenthesis. -/
theorem append_point_close (name sign whole part : List Char) :
    name ++ sign ++ whole ++ ['.'] ++ part ++ [')'] = name ++ (sign ++ (whole ++ '.' :: part) ++ [')']) := by
  simp

/-- Settles O52: the text is the encoder's form around a signed decimal, whose digits spell the number. -/
theorem decimalTextIsReadExactly : Obligations.DecimalTextIsReadExactly := by
  intro negative whole part hwhole hpart
  rw [map_hexDigit_eq_decimalChars, map_hexDigit_eq_decimalChars, append_point_close, readText_encodeF32ToF16,
    encoderOperand_decimal negative hwhole, decimalOperand_of_readDecimal (readDecimal_point hwhole hpart)]
  cases exactF32 negative (Nat.ofDigits 10 ((whole ++ part).reverse.map fun d => d.val)) part.length <;> rfl

/-- Settles O53: six texts, read. -/
theorem namedTextOperands : Obligations.NamedTextOperands := by
  unfold Obligations.NamedTextOperands
  decide

end Sys2Proof.Machine

/-! A decimal names the pattern of its value: the search for a magnitude is inverse to counting units of 2^−149 (spec R45, R51). -/

namespace Sys2Proof.Machine

/-- The units of 2^−149 in a packed pattern, from its magnitude bits (R51). -/
theorem units32_pack32 {s m : Nat} (hs : s < 2) (hm : m < 2 ^ 31) : units32 (pack32 s m) =
    if m / 2 ^ 23 = 0 then m % 2 ^ 23 else (2 ^ 23 + m % 2 ^ 23) * 2 ^ (m / 2 ^ 23 - 1) := by
  rw [units32, exp32_pack32 hs hm, frac32_pack32 hs hm]

/-- A 24-bit significand shifted by `e` has its highest 1 bit at `e + 23`. -/
theorem log2_significand {e f : Nat} (hf : f < 2 ^ 23) : Nat.log2 ((2 ^ 23 + f) * 2 ^ e) = e + 23 := by
  have hpos : 0 < 2 ^ e := by positivity
  rw [Nat.log2_eq_iff (by positivity), Nat.add_assoc, pow_add, pow_add, Nat.mul_comm (2 ^ e), Nat.mul_comm (2 ^ e)]
  exact ⟨Nat.mul_le_mul_right _ (by omega), Nat.mul_lt_mul_of_pos_right (by omega) hpos⟩

/-- A number from 2^23 up whose bits below its 24 leading ones are 0 is a significand, shifted. -/
theorem exists_significand {q : Nat} (hq : 2 ^ 23 ≤ q) (hlow : q % 2 ^ (Nat.log2 q - 23) = 0) :
    ∃ f, f < 2 ^ 23 ∧ q = (2 ^ 23 + f) * 2 ^ (Nat.log2 q - 23) := by
  have hne : q ≠ 0 := by omega
  have hlog : 23 ≤ Nat.log2 q := (Nat.le_log2 hne).2 hq
  have hlo := Nat.log2_self_le hne
  have hhi := Nat.lt_log2_self (n := q)
  obtain ⟨e, he⟩ := Nat.exists_eq_add_of_le hlog
  rw [he, Nat.add_sub_cancel_left] at hlow ⊢
  have hpos : 0 < 2 ^ e := by positivity
  have hge : 2 ^ 23 ≤ q / 2 ^ e := by rwa [Nat.le_div_iff_mul_le hpos, ← pow_add, ← he]
  have hlt : q / 2 ^ e < 2 ^ 24 := by
    rwa [Nat.div_lt_iff_lt_mul hpos, ← pow_add, show 24 + e = 23 + e + 1 by omega, ← he]
  refine ⟨q / 2 ^ e - 2 ^ 23, by omega, ?_⟩
  rw [Nat.add_sub_cancel' hge, Nat.div_mul_cancel (Nat.dvd_of_mod_eq_zero hlow)]

/-- R51: the units of a normal have the magnitude of its exponent field over its fraction field. -/
theorem magnitudeOfUnits_significand {e f : Nat} (he : e ≤ 253) (hf : f < 2 ^ 23) :
    magnitudeOfUnits ((2 ^ 23 + f) * 2 ^ e) = some ((e + 1) * 2 ^ 23 + f) := by
  have hpos : 0 < 2 ^ e := by positivity
  have hge : 2 ^ 23 + f ≤ (2 ^ 23 + f) * 2 ^ e := Nat.le_mul_of_pos_right _ hpos
  rw [magnitudeOfUnits, log2_significand hf, Nat.add_sub_cancel, if_neg (by omega), Nat.mul_mod_left,
    if_neg (by decide), if_neg (by omega), Nat.mul_div_cancel _ hpos, Nat.add_sub_cancel_left]

/-- R51: the magnitude found for the units of a finite pattern is the pattern's own. -/
theorem magnitudeOfUnits_units32 {x : F32} (hx : exp32 x ≠ 255) : magnitudeOfUnits (units32 x) = some (mag32 x) := by
  have hf := frac32_lt x
  have he := exp32_lt x
  rw [mag32_split, units32]
  by_cases h0 : exp32 x = 0
  · rw [if_pos h0, h0, Nat.zero_mul, Nat.zero_add, magnitudeOfUnits, if_pos hf]
  · rw [if_neg h0, magnitudeOfUnits_significand (by omega) hf, Nat.sub_add_cancel (by omega)]

/-- R51: a magnitude found for a number of units is finite and stands for that number, under either sign. -/
theorem units32_of_magnitudeOfUnits {s q m : Nat} (hs : s < 2) (h : magnitudeOfUnits q = some m) :
    m < 255 * 2 ^ 23 ∧ units32 (pack32 s m) = q := by
  by_cases hq : q < 2 ^ 23
  · obtain rfl : q = m := by simpa only [magnitudeOfUnits, if_pos hq, Option.some.injEq] using h
    rw [units32_pack32 hs (by omega), if_pos (by omega), Nat.mod_eq_of_lt hq]
    exact ⟨by omega, rfl⟩
  · rw [magnitudeOfUnits, if_neg hq] at h
    split at h
    · cases h
    · next hlow =>
      split at h
      · cases h
      · next he =>
        obtain ⟨f, hf, hqf⟩ := exists_significand (Nat.not_lt.1 hq) (not_not.1 hlow)
        generalize Nat.log2 q - 23 = e at h he hqf
        subst hqf
        rw [Nat.mul_div_cancel _ (by positivity), Nat.add_sub_cancel_left] at h
        obtain rfl := Option.some.inj h
        have hexp : ((e + 1) * 2 ^ 23 + f) / 2 ^ 23 = e + 1 := by omega
        have hfrac : ((e + 1) * 2 ^ 23 + f) % 2 ^ 23 = f := by omega
        rw [units32_pack32 hs (by omega), hexp, hfrac, if_neg e.succ_ne_zero, Nat.add_sub_cancel]
        exact ⟨by omega, rfl⟩

/-- A pattern whose absolute value is a number is finite (R51). -/
theorem exp32_ne_of_abs_eq {x : F32} {a : ℚ} (h : (val32 x).abs = some (a : WithTop ℚ)) : exp32 x ≠ 255 := by
  intro hx
  rw [val32_abs_special hx] at h
  split at h
  · exact WithTop.top_ne_coe (Option.some.inj h)
  · cases h

/-- A finite pattern has the absolute value `n / 10^k` exactly when its units of 2^−149 do. -/
theorem val32_abs_eq_decimal_iff {x : F32} (hx : exp32 x ≠ 255) (n k : Nat) :
    (val32 x).abs = some (((n : ℚ) / 10 ^ k : ℚ) : WithTop ℚ) ↔ n * 2 ^ 149 = units32 x * 10 ^ k := by
  have hpow : (2 : ℚ) ^ (-149 : ℤ) = 1 / 2 ^ 149 := by rw [zpow_neg, one_div]; rfl
  rw [val32_abs hx, Option.some_inj, WithTop.coe_inj, hpow, mul_one_div, div_eq_div_iff (by positivity) (by positivity), eq_comm]
  norm_cast

/-- R45: a decimal names a pattern when it is a whole number of units of 2^−149 and that number has a magnitude. -/
theorem exactF32_eq_some_iff (negative : Bool) (n k : Nat) (x : F32) :
    exactF32 negative n k = some x ↔
      n * 2 ^ 149 % 10 ^ k = 0 ∧ ∃ m, magnitudeOfUnits (n * 2 ^ 149 / 10 ^ k) = some m ∧ pack32 negative.toNat m = x := by
  rw [exactF32]
  split
  · next h => exact ⟨nofun, fun hx => absurd hx.1 h⟩
  · next h => rw [Option.map_eq_some_iff, and_iff_right (not_not.1 h)]

/-- Settles O51: both sides say that the pattern has the sign and `n * 2^149 / 10^k` units, exactly. -/
theorem decimalNamesThePatternOfItsValue : Obligations.DecimalNamesThePatternOfItsValue := by
  intro negative n k x
  rw [exactF32_eq_some_iff]
  constructor
  · rintro ⟨hdvd, m, hmag, rfl⟩
    have hsign := Bool.toNat_lt negative
    obtain ⟨hm, hunits⟩ := units32_of_magnitudeOfUnits hsign hmag
    have hm31 : m < 2 ^ 31 := by omega
    have hexp : exp32 (pack32 negative.toNat m) ≠ 255 := by rw [exp32_pack32 hsign hm31]; omega
    rw [val32_abs_eq_decimal_iff hexp, hunits, Nat.div_mul_cancel (Nat.dvd_of_mod_eq_zero hdvd)]
    exact ⟨sign32_pack32 hsign hm31, rfl⟩
  · rintro ⟨hsign, habs⟩
    have hexp := exp32_ne_of_abs_eq habs
    rw [val32_abs_eq_decimal_iff hexp] at habs
    rw [habs, Nat.mul_mod_left, Nat.mul_div_cancel _ (by positivity)]
    exact ⟨rfl, mag32 x, magnitudeOfUnits_units32 hexp, by rw [← hsign, pack32_self]⟩

end Sys2Proof.Machine

/-! Categories, values and regions: a pattern is classified by its fields, and its magnitude bits order its absolute value (spec R49 to
R57, R64). -/

namespace Sys2Proof.Machine

/-- The rows of R49, for either format. -/
theorem categoryOf_rows {f : Format} (hf : f.expMax ≠ 0) {ex : Nat} (hex : ex ≤ f.expMax) (fr : Nat) :
    (categoryOf f ex fr = .zero ↔ ex = 0 ∧ fr = 0) ∧ (categoryOf f ex fr = .subnormal ↔ ex = 0 ∧ fr ≠ 0) ∧
    (categoryOf f ex fr = .normal ↔ 1 ≤ ex ∧ ex ≤ f.expMax - 1) ∧ (categoryOf f ex fr = .infinity ↔ ex = f.expMax ∧ fr = 0) ∧
    (categoryOf f ex fr = .nan ↔ ex = f.expMax ∧ fr ≠ 0) := by
  rw [categoryOf]
  split_ifs <;> simp only [true_iff, false_iff] <;> omega

/-- The sign bit is in neither field (R47). -/
theorem fields_xor_sign32 (x : F32) : exp32 (x ^^^ 0x80000000) = exp32 x ∧ frac32 (x ^^^ 0x80000000) = frac32 x := by
  simp [exp32, frac32, BitVec.extractLsb'_xor]

theorem fields_xor_sign16 (h : F16) : exp16 (h ^^^ 0x8000) = exp16 h ∧ frac16 (h ^^^ 0x8000) = frac16 h := by
  simp [exp16, frac16, BitVec.extractLsb'_xor]

/-- Settles O18: the rows of R49 at the two formats, and a category is read off fields that the sign bit is not in. -/
theorem categoriesAreTheFieldConditions : Obligations.CategoriesAreTheFieldConditions := by
  constructor
  · intro x
    obtain ⟨hzero, hsubnormal, hnormal, hinfinity, hnan⟩ :=
      categoryOf_rows (f := binary32) (by decide) (Nat.le_of_lt_succ (exp32_lt x)) (frac32 x)
    obtain ⟨hexp, hfrac⟩ := fields_xor_sign32 x
    exact ⟨hzero, hsubnormal, hnormal, hinfinity, hnan, by rw [class32, class32, hexp, hfrac]⟩
  · intro h
    obtain ⟨hzero, hsubnormal, hnormal, hinfinity, hnan⟩ :=
      categoryOf_rows (f := binary16) (by decide) (Nat.le_of_lt_succ (exp16_lt h)) (frac16 h)
    obtain ⟨hexp, hfrac⟩ := fields_xor_sign16 h
    exact ⟨hzero, hsubnormal, hnormal, hinfinity, hnan, by rw [class16, class16, hexp, hfrac]⟩

/-- Settles O19: the fields of each pattern are computed, and its value is that many units of the smallest subnormal. -/
theorem namedExtremeValues : Obligations.NamedExtremeValues := by
  refine ⟨?_, ?_, ?_, ?_, rfl, rfl⟩
  · change valueOf binary16 0 0 1 = _
    rw [valueOf_units (by decide) (by decide)]; norm_num [binary16]
  · change valueOf binary16 0 30 1023 = _
    rw [valueOf_units (by decide) (by decide)]; norm_num [binary16]
  · change valueOf binary16 1 30 1023 = _
    rw [valueOf_units (by decide) (by decide)]; norm_num [binary16]
  · change valueOf binary32 0 1 0 = _
    rw [valueOf_units (by decide) (by decide)]; norm_num [binary32]

/-- R52: the units of a pattern are in the order of its magnitude bits. -/
theorem units32_le_iff {x y : F32} : units32 x ≤ units32 y ↔ mag32 x ≤ mag32 y := by
  rcases lt_trichotomy (mag32 x) (mag32 y) with hlt | heq | hgt
  · exact iff_of_true (units32_lt hlt).le hlt.le
  · have hx := mag32_split x
    have hy := mag32_split y
    have hfx := frac32_lt x
    have hfy := frac32_lt y
    have hexp : exp32 x = exp32 y := by omega
    have hfrac : frac32 x = frac32 y := by omega
    exact iff_of_true (by rw [units32, units32, hexp, hfrac]) heq.le
  · exact iff_of_false (units32_lt hgt).not_ge hgt.not_ge

theorem units16_le_iff {g h : F16} : units16 g ≤ units16 h ↔ mag16 g ≤ mag16 h := by
  rcases lt_trichotomy (mag16 g) (mag16 h) with hlt | heq | hgt
  · exact iff_of_true (units16_lt hlt).le hlt.le
  · have hg := mag16_split g
    have hh := mag16_split h
    have hfg := frac16_lt g
    have hfh := frac16_lt h
    have hexp : exp16 g = exp16 h := by omega
    have hfrac : frac16 g = frac16 h := by omega
    exact iff_of_true (by rw [units16, units16, hexp, hfrac]) heq.le
  · exact iff_of_false (units16_lt hgt).not_ge hgt.not_ge

/-- The two kinds of absolute value (R51, R52) of a magnitude `m`: below `top` it is `units` times `c`, and at `top` it is the infinity's. -/
def FiniteOrTop (top : Nat) (c : ℚ) (m units : Nat) (a : WithTop ℚ) : Prop :=
  (m < top ∧ a = ((units * c : ℚ) : WithTop ℚ)) ∨ (m = top ∧ a = ⊤)

theorem val32_finiteOrTop {x : F32} {a : WithTop ℚ} (h : (val32 x).abs = some a) :
    FiniteOrTop 0x7F800000 (2 ^ (-149 : ℤ)) (mag32 x) (units32 x) a := by
  have hsplit := mag32_split x
  have hfrac := frac32_lt x
  have hexp := exp32_lt x
  by_cases hmax : exp32 x = 255
  · rw [val32_abs_special hmax] at h
    split at h
    · exact .inr ⟨by omega, (Option.some.inj h).symm⟩
    · cases h
  · rw [val32_abs hmax] at h
    exact .inl ⟨by omega, (Option.some.inj h).symm⟩

theorem val16_finiteOrTop {h : F16} {a : WithTop ℚ} (ha : (val16 h).abs = some a) :
    FiniteOrTop 0x7C00 (2 ^ (-24 : ℤ)) (mag16 h) (units16 h) a := by
  have hsplit := mag16_split h
  have hfrac := frac16_lt h
  have hexp := exp16_lt h
  by_cases hmax : exp16 h = 31
  · rw [val16_abs_special hmax] at ha
    split at ha
    · exact .inr ⟨by omega, (Option.some.inj ha).symm⟩
    · cases ha
  · rw [val16_abs hmax] at ha
    exact .inl ⟨by omega, (Option.some.inj ha).symm⟩

/-- R52: where the units are in the order of the magnitudes, so are the absolute values, the infinity on top. -/
theorem FiniteOrTop.le_iff {top m n u v : Nat} {c : ℚ} {a b : WithTop ℚ} (hc : 0 < c) (ha : FiniteOrTop top c m u a)
    (hb : FiniteOrTop top c n v b) (huv : u ≤ v ↔ m ≤ n) : m ≤ n ↔ a ≤ b := by
  rcases ha with ⟨hm, rfl⟩ | ⟨rfl, rfl⟩ <;> rcases hb with ⟨hn, rfl⟩ | ⟨rfl, rfl⟩
  · rw [WithTop.coe_le_coe, mul_le_mul_iff_left₀ hc, Nat.cast_le, huv]
  · exact iff_of_true hm.le le_top
  · exact iff_of_false hn.not_ge (WithTop.coe_lt_top _).not_ge
  · exact iff_of_true le_rfl le_rfl

theorem mag32_le_iff_abs_le {x y : F32} {a b : WithTop ℚ} (hx : (val32 x).abs = some a) (hy : (val32 y).abs = some b) :
    mag32 x ≤ mag32 y ↔ a ≤ b :=
  (val32_finiteOrTop hx).le_iff (by positivity) (val32_finiteOrTop hy) units32_le_iff

theorem mag16_le_iff_abs_le {g h : F16} {a b : WithTop ℚ} (hg : (val16 g).abs = some a) (hh : (val16 h).abs = some b) :
    mag16 g ≤ mag16 h ↔ a ≤ b :=
  (val16_finiteOrTop hg).le_iff (by positivity) (val16_finiteOrTop hh) units16_le_iff

/-- Settles O20: the two orders agree, and each equality is the order both ways. -/
theorem magnitudeOrderIsValueOrder : Obligations.MagnitudeOrderIsValueOrder := by
  constructor
  · intro x y a b hx hy
    have hle := mag32_le_iff_abs_le hx hy
    have hge := mag32_le_iff_abs_le hy hx
    exact ⟨hle, by rw [le_antisymm_iff, le_antisymm_iff, hle, hge]⟩
  · intro g h a b hg hh
    have hle := mag16_le_iff_abs_le hg hh
    have hge := mag16_le_iff_abs_le hh hg
    exact ⟨hle, by rw [le_antisymm_iff, le_antisymm_iff, hle, hge]⟩

/-- R53: what each answer of `region` says of the operand, when the parameters are in range; no two of the five agree. -/
theorem region_cases {p : Params} (hp : p.wf = true) (x : F32) :
    (region p x = .nan ∧ exp32 x = 255 ∧ frac32 x ≠ 0) ∨
    (region p x = .inf ∧ exp32 x = 255 ∧ frac32 x = 0) ∨
    (region p x = .overflow ∧ 142 ≤ exp32 x ∧ exp32 x ≤ 254 ∧ p.ovfLimit.toNat < mag32 x) ∨
    (region p x = .underflow ∧ exp32 x ≤ 112 ∧ mag32 x < 0x38800000) ∨
    (region p x = .normalRange ∧ 113 ≤ exp32 x ∧ exp32 x ≤ 142 ∧ 0x38800000 ≤ mag32 x ∧ mag32 x ≤ p.ovfLimit.toNat) := by
  obtain ⟨hlo, hhi⟩ := wf_ovfLimit hp
  have hsplit := mag32_split x
  have hfrac := frac32_lt x
  have hexp := exp32_lt x
  have hmin : min16Norm32 = 0x38800000 := rfl
  by_cases hnan : exp32 x = 255 ∧ frac32 x ≠ 0
  · exact .inl ⟨if_pos hnan, hnan⟩
  by_cases hinf : exp32 x = 255 ∧ frac32 x = 0
  · exact .inr (.inl ⟨by rw [region, if_neg hnan, if_pos hinf], hinf⟩)
  by_cases hover : mag32 x > p.ovfLimit.toNat
  · exact .inr (.inr (.inl ⟨by rw [region, if_neg hnan, if_neg hinf, if_pos hover], by omega, by omega, hover⟩))
  by_cases hunder : mag32 x < min16Norm32
  · exact .inr (.inr (.inr (.inl ⟨by rw [region, if_neg hnan, if_neg hinf, if_neg hover, if_pos hunder], by omega, by omega⟩)))
  · exact .inr (.inr (.inr (.inr ⟨by rw [region, if_neg hnan, if_neg hinf, if_neg hover, if_neg hunder],
      by omega, by omega, by omega, by omega⟩)))

/-- Settles O21: in each of the five cases every test is decided by the operand's fields. -/
theorem regionsAreDisjointAndCoverAll : Obligations.RegionsAreDisjointAndCoverAll := by
  intro p x hp
  obtain ⟨hlo, hhi⟩ := wf_ovfLimit hp
  have hsplit := mag32_split x
  have hfrac := frac32_lt x
  have hspec : p.ovfLimit = 0x477FFFFF ↔ p.ovfLimit.toNat = 0x477FFFFF := BitVec.toNat_inj.symm
  rw [hspec]
  rcases region_cases hp x with ⟨hr, hx⟩ | ⟨hr, hx⟩ | ⟨hr, hx⟩ | ⟨hr, hx⟩ | ⟨hr, hx⟩ <;>
    simp only [hr, reduceCtorEq, true_iff, false_iff] <;> omega

/-- R56: the encoder's canonical NaN, pattern by pattern. -/
theorem canonicalNan16_eq_ite {s : Nat} (hs : s < 2) : canonicalNan16 s = if s = 0 then 0x7FFF else 0xFFFF := by
  interval_cases s <;> rfl

/-- R56: the decoder's canonical NaN at the spec value of its parameter, pattern by pattern. -/
theorem canonicalNan32_eq_ite {p : Params} (hp : p.decNan = 0x7FC00000) {s : Nat} (hs : s < 2) :
    canonicalNan32 p s = if s = 0 then 0x7FC00000 else 0xFFC00000 := by
  rw [canonicalNan32, hp]
  interval_cases s <;> rfl

/-- R56: the encoder's canonical NaN is quiet. -/
theorem canonicalNan16_quiet {s : Nat} (hs : s < 2) : (frac16 (canonicalNan16 s)).testBit 9 = true := by
  rw [canonicalNan16, frac16_pack16 hs (by decide)]; decide

/-- R56: the decoder's canonical NaN is quiet at the spec value of its parameter. -/
theorem canonicalNan32_quiet {p : Params} (hp : p.decNan = 0x7FC00000) {s : Nat} (hs : s < 2) :
    (frac32 (canonicalNan32 p s)).testBit 22 = true := by
  rw [canonicalNan32, frac32_pack32 hs p.decNan.isLt, hp]; decide

/-- Settles O22: a NaN operand gives the canonical NaN of its sign, which has no payload to depend on. -/
theorem nanPayloadNeverReachesTheResult : Obligations.NanPayloadNeverReachesTheResult := by
  constructor
  · intro p x hx
    rw [codecEncode_of_nan p hx]
    exact ⟨rfl, canonicalNan16_eq_ite (sign32_lt x), canonicalNan16_quiet (sign32_lt x)⟩
  · intro p h hh
    rw [codecDecode_of_nan p hh]
    exact ⟨rfl, fun hp => ⟨canonicalNan32_eq_ite hp (sign16_lt h), canonicalNan32_quiet hp (sign16_lt h)⟩⟩

/-- Settles O23: every path of either unit packs the sign of its operand over a magnitude that fits below it. -/
theorem signPassesThrough : Obligations.SignPassesThrough := by
  constructor
  · intro p x hp
    obtain ⟨v, hv, heq, -⟩ := codecEncode_cases hp x
    rw [heq, sign16_pack16 (sign32_lt x) hv]
  · intro p h
    obtain ⟨v, hv, heq, -⟩ := codecDecode_cases p h
    rw [heq, sign32_pack32 (sign16_lt h) hv]

/-- R62: below the normal range, the shift by `113 − E` and 13 counts the whole units of 2^−24 in the operand. -/
theorem underflow_shift_eq_units {x : F32} (hx : exp32 x ≤ 112) :
    (2 ^ 23 + frac32 x) / 2 ^ (113 - exp32 x + 13) = units32 x / 2 ^ 125 := by
  have hfrac := frac32_lt x
  rw [units32]
  split
  · next hzero =>
    rw [hzero, Nat.div_eq_of_lt (by omega), Nat.div_eq_of_lt (by omega)]
  · have hpow : 2 ^ 125 = 2 ^ (113 - exp32 x + 13) * 2 ^ (exp32 x - 1) := by rw [← pow_add]; congr 1; omega
    rw [hpow, Nat.mul_div_mul_right _ _ (by positivity)]

/-- R62, R63: the magnitude of a result that is not clamped, in terms of the operand's magnitude and units. -/
theorem mag16_codecEncode_of_le_ovfLimit {p : Params} (hp : p.wf = true) {x : F32} (hx : mag32 x ≤ p.ovfLimit.toNat) :
    (mag32 x < 0x38800000 ∧ mag16 (codecEncode p x) = units32 x / 2 ^ 125 ∧ mag16 (codecEncode p x) < 2 ^ 10) ∨
    (0x38800000 ≤ mag32 x ∧ mag16 (codecEncode p x) = mag32 x / 2 ^ 13 - 112 * 2 ^ 10) := by
  obtain ⟨hlo, hhi⟩ := wf_ovfLimit hp
  have hsplit := mag32_split x
  have hfrac := frac32_lt x
  obtain ⟨v, hv, heq, hcases⟩ := codecEncode_cases hp x
  rw [heq, mag16_pack16 (sign32_lt x) hv]
  rcases hcases with ⟨hnan, -⟩ | ⟨hinf, -⟩ | ⟨-, hover, -⟩ | ⟨hexp, -, hmag, hlt, hunits⟩ | ⟨hexp, -, hmag, -, hnormal⟩
  · omega
  · omega
  · omega
  · exact .inl ⟨hmag, hunits.trans (underflow_shift_eq_units hexp), hlt⟩
  · exact .inr ⟨hmag, by omega⟩

/-- Settles O25: each of the two ranges divides something monotone, and every result below the normal range is below 2^10, where the normal
range begins. -/
theorem encodeIsMonotone : Obligations.EncodeIsMonotone := by
  intro p x y hp hxy hy
  rcases mag16_codecEncode_of_le_ovfLimit hp (hxy.trans hy) with ⟨hx, hvx, hltx⟩ | ⟨hx, hvx⟩ <;>
    rcases mag16_codecEncode_of_le_ovfLimit hp hy with ⟨hny, hvy, -⟩ | ⟨hny, hvy⟩
  · rw [hvx, hvy]
    exact Nat.div_le_div_right (units32_le_iff.2 hxy)
  · omega
  · omega
  · omega

end Sys2Proof.Machine

/-! The encoder, path by path: the instruction's answer on each path, the truncation law, and the set of results (spec R58 to R65). -/

namespace Sys2Proof.Machine

/-- Settles O7: the one equation of the instruction's meaning. -/
theorem encodeAnswersEveryOperand : Obligations.EncodeAnswersEveryOperand :=
  fun s x => exec_encodeF32ToF16 x s

/-- R41, R58: the result word of a packed pattern is the exact integer of the pseudocode. -/
theorem encResult_pack16 {s v : Nat} (hs : s < 2) (hv : v < 2 ^ 15) :
    encResult (pack16 s v) = BitVec.ofNat 32 (s <<< 15 ||| v) := by
  apply BitVec.eq_of_toNat_eq
  rw [encResult_toNat, pack16_toNat hs hv, shiftLeft_or_eq s hv, BitVec.toNat_ofNat]
  omega

/-- R58: an operand whose result has the magnitude bits `v` under its own sign is answered `(s << 15) | v`. -/
theorem exec_encodeF32ToF16_of_pack16 {s : State} {x : F32} {v : Nat} (hv : v < 2 ^ 15)
    (h : codecEncode s.params x = pack16 (sign32 x) v) :
    exec (.encodeF32ToF16 x) s = .next (s.encodeAnswered x (BitVec.ofNat 32 (sign32 x <<< 15 ||| v))) := by
  rw [exec_encodeF32ToF16, h, encResult_pack16 (sign32_lt x) hv]

/-- Settles O8: the result is the canonical NaN of the operand's sign. -/
theorem encodeOfNanIsCanonicalNan : Obligations.EncodeOfNanIsCanonicalNan := by
  intro s x hexp hfrac
  exact exec_encodeF32ToF16_of_pack16 (by decide) (codecEncode_of_nan s.params ((class32_eq_nan_iff x).2 ⟨hexp, hfrac⟩))

/-- R60: a binary32 infinity encodes to the binary16 infinity of its sign. -/
theorem codecEncode_of_infinity (p : Params) {x : F32} (hexp : exp32 x = 255) (hfrac : frac32 x = 0) :
    codecEncode p x = pack16 (sign32 x) 0x7C00 := by
  rw [codecEncode, if_neg fun hnan => hnan.2 hfrac, if_pos ⟨hexp, hfrac⟩, exp16Mask]

theorem exec_encodeF32ToF16_of_infinity (s : State) {x : F32} (hexp : exp32 x = 255) (hfrac : frac32 x = 0) :
    exec (.encodeF32ToF16 x) s = .next (s.encodeAnswered x (BitVec.ofNat 32 (sign32 x <<< 15 ||| 0x7C00))) :=
  exec_encodeF32ToF16_of_pack16 (by decide) (codecEncode_of_infinity s.params hexp hfrac)

/-- Settles O9: the two vectors are the infinity path at its two signs. -/
theorem encodeOfInfinityIsInfinity : Obligations.EncodeOfInfinityIsInfinity :=
  ⟨fun s _ hexp hfrac => exec_encodeF32ToF16_of_infinity s hexp hfrac, fun s =>
    ⟨exec_encodeF32ToF16_of_infinity s (x := 0x7F800000) (by decide) (by decide),
      exec_encodeF32ToF16_of_infinity s (x := 0xFF800000) (by decide) (by decide)⟩⟩

/-- R61: a finite operand above `P_OVF_LIMIT` encodes to the canonical NaN of its sign. -/
theorem codecEncode_of_overflow {p : Params} {x : F32} (hexp : exp32 x ≠ 255) (hover : p.ovfLimit.toNat < mag32 x) :
    codecEncode p x = canonicalNan16 (sign32 x) := by
  rw [codecEncode, if_neg fun hnan => hexp hnan.1, if_neg fun hinf => hexp hinf.1, if_pos hover]

theorem exec_encodeF32ToF16_of_overflow {s : State} {x : F32} (hexp : exp32 x ≠ 255)
    (hover : s.params.ovfLimit.toNat < mag32 x) :
    exec (.encodeF32ToF16 x) s = .next (s.encodeAnswered x (BitVec.ofNat 32 (sign32 x <<< 15 ||| 0x7FFF))) :=
  exec_encodeF32ToF16_of_pack16 (by decide) (codecEncode_of_overflow hexp hover)

/-- R51: the pattern with exponent field `e` and fraction field 0 denotes a power of two. -/
theorem val32_abs_pack32_two_zpow {e : Nat} (hlo : 1 ≤ e) (hhi : e ≤ 254) :
    (val32 (pack32 0 (e * 2 ^ 23))).abs = some (((2 : ℚ) ^ ((e : ℤ) - 127) : ℚ) : WithTop ℚ) := by
  have hm : e * 2 ^ 23 < 2 ^ 31 := by omega
  have hexp : exp32 (pack32 0 (e * 2 ^ 23)) = e := by rw [exp32_pack32 (by decide) hm]; omega
  have hfrac : frac32 (pack32 0 (e * 2 ^ 23)) = 0 := by rw [frac32_pack32 (by decide) hm]; omega
  have hpow : ((e : ℤ) - 127) = (23 : ℕ) + ((e - 1 : ℕ) : ℤ) + (-149) := by omega
  rw [val32_abs (by omega), units32, hexp, hfrac, if_neg (by omega), hpow, zpow_add₀ (by norm_num),
    zpow_add₀ (by norm_num), zpow_natCast, zpow_natCast]
  norm_cast

/-- R51, R52: a finite binary32 magnitude reaches a power of two of the normal range exactly when its exponent field does. -/
theorem two_zpow_le_abs_iff {x : F32} {a : ℚ} (h : (val32 x).abs = some (a : WithTop ℚ)) {k : ℤ} (hlo : -126 ≤ k)
    (hhi : k ≤ 127) : (2 : ℚ) ^ k ≤ a ↔ k + 127 ≤ exp32 x := by
  obtain ⟨e, he⟩ := Int.eq_ofNat_of_zero_le (show 0 ≤ k + 127 by omega)
  obtain rfl : k = e - 127 := by omega
  have hsplit := mag32_split x
  have hfrac := frac32_lt x
  have hmag := mag32_le_iff_abs_le (val32_abs_pack32_two_zpow (e := e) (by omega) (by omega)) h
  rw [mag32_pack32 (by decide) (by omega), WithTop.coe_le_coe] at hmag
  rw [← hmag]
  omega

/-- Settles O10: the threshold's spec value is the last magnitude below exponent field 143, the field of 2^16. -/
theorem encodeClampsOverflowToNanPattern : Obligations.EncodeClampsOverflowToNanPattern := by
  refine ⟨fun s x => exec_encodeF32ToF16_of_overflow, fun s x a hlimit habs => ?_, fun sgn hsgn => ?_⟩
  · have hsplit := mag32_split x
    have hfrac := frac32_lt x
    have hvalue := two_zpow_le_abs_iff habs (k := 16) (by decide) (by decide)
    have hthreshold : s.params.ovfLimit.toNat = 0x477FFFFF := congrArg BitVec.toNat hlimit
    have hover : 65536 ≤ a ↔ s.params.ovfLimit.toNat < mag32 x := by
      rw [show (65536 : ℚ) = 2 ^ (16 : ℤ) by norm_num, hvalue]
      omega
    exact ⟨fun ha => exec_encodeF32ToF16_of_overflow (exp32_ne_of_abs_eq habs) (hover.1 ha), hover⟩
  · exact class16_canonicalNan16 hsgn

/-- R62: below 2^−14 the result is the significand, shifted by `113 − E` and by 13. -/
theorem codecEncode_of_underflow {p : Params} (hp : p.wf = true) {x : F32} (hx : mag32 x < 0x38800000) :
    codecEncode p x = pack16 (sign32 x) (((0x00800000 ||| frac32 x) >>> (113 - exp32 x)) >>> 13) := by
  obtain ⟨hlo, -⟩ := wf_ovfLimit hp
  have hsplit := mag32_split x
  rw [codecEncode, if_neg (by omega), if_neg (by omega), if_neg (by omega), min16Norm32, if_pos hx, hidden32, ufBase, fracShift]

/-- R62: a significand shifted at least once fits in 23 bits. -/
theorem significand_shift_lt {m sh : Nat} (hm : m < 2 ^ 24) (hsh : 1 ≤ sh) : m >>> sh < 2 ^ 23 := by
  rw [Nat.shiftRight_eq_div_pow]
  calc m / 2 ^ sh ≤ m / 2 ^ 1 := Nat.div_le_div_left (Nat.pow_le_pow_right (by decide) hsh) (by decide)
    _ < 2 ^ 23 := by omega

/-- R62: no bit of a significand survives a shift by 11 and by 13. -/
theorem significand_shift_eq_zero {m sh : Nat} (hm : m < 2 ^ 24) (hsh : 11 ≤ sh) : (m >>> sh) >>> 13 = 0 := by
  rw [← Nat.shiftRight_add, Nat.shiftRight_eq_div_pow]
  exact Nat.div_eq_of_lt (hm.trans_le (Nat.pow_le_pow_right (by decide) (by omega)))

/-- R62: the leading 1 of a significand survives a shift by at most 10 and by 13. -/
theorem significand_shift_pos {m sh : Nat} (hm : 2 ^ 23 ≤ m) (hsh : sh ≤ 10) : 1 ≤ (m >>> sh) >>> 13 := by
  rw [← Nat.shiftRight_add, Nat.shiftRight_eq_div_pow]
  exact Nat.div_pos ((Nat.pow_le_pow_right (by decide) (by omega)).trans hm) (by positivity)

/-- Settles O11: the bounds of the shift by the exponent field, whose values 113 and 103 are those of 2^−14 and 2^−24. -/
theorem encodeUnderflowShiftsTheSignificand : Obligations.EncodeUnderflowShiftsTheSignificand := by
  intro s x hp hx
  have hfrac := frac32_lt x
  have hsplit := mag32_split x
  have hexp : exp32 x ≤ 112 := by omega
  have hsig : 0x00800000 ||| frac32 x = 2 ^ 23 + frac32 x := hidden32_or hfrac
  have hshift : (0x00800000 ||| frac32 x) >>> (113 - exp32 x) < 2 ^ 23 := significand_shift_lt (by omega) (by omega)
  have hlt : ((0x00800000 ||| frac32 x) >>> (113 - exp32 x)) >>> 13 < 2 ^ 10 := by
    rw [Nat.shiftRight_eq_div_pow _ 13]; omega
  have habs := val32_abs (x := x) (by omega)
  have hnormal := two_zpow_le_abs_iff habs (k := -14) (by decide) (by decide)
  have hflush := two_zpow_le_abs_iff habs (k := -24) (by decide) (by decide)
  refine ⟨exec_encodeF32ToF16_of_pack16 (by omega) (codecEncode_of_underflow hp hx), hexp, hshift,
    fun he => significand_shift_eq_zero (by omega) (by omega),
    fun he => ⟨significand_shift_pos (by omega) (by omega), by omega⟩, _, habs, ?_, ?_⟩
  · rw [← not_le, hnormal]; omega
  · rw [← not_le, hflush]; omega

/-- R63: in the normal range the result is the rebiased magnitude, shifted by 13. -/
theorem codecEncode_of_normalRange {p : Params} {x : F32} (hlo : 0x38800000 ≤ mag32 x) (hexp : exp32 x ≠ 255)
    (hhi : mag32 x ≤ p.ovfLimit.toNat) : codecEncode p x = pack16 (sign32 x) ((mag32 x - 0x38000000) >>> 13) := by
  rw [codecEncode, if_neg fun hnan => hexp hnan.1, if_neg fun hinf => hexp hinf.1, if_neg hhi.not_gt, min16Norm32,
    if_neg hlo.not_gt, biasDiff32, fracShift]

/-- A magnitude that does not overflow is finite (R53, R61). -/
theorem exp32_le_of_le_ovfLimit {p : Params} (hp : p.wf = true) {x : F32} (hx : mag32 x ≤ p.ovfLimit.toNat) : exp32 x ≤ 142 := by
  obtain ⟨-, hhi⟩ := wf_ovfLimit hp
  have hsplit := mag32_split x
  omega

/-- R63, R64: in the normal range the exponent and the top 10 fraction bits are kept. -/
theorem fields_codecEncode_of_normalRange {p : Params} (hp : p.wf = true) {x : F32} (hlo : 0x38800000 ≤ mag32 x)
    (hhi : mag32 x ≤ p.ovfLimit.toNat) :
    exp16 (codecEncode p x) + 112 = exp32 x ∧ frac16 (codecEncode p x) = frac32 x / 2 ^ 13 := by
  have hsplit := mag32_split x
  have hfrac := frac32_lt x
  have hsplit' := mag16_split (codecEncode p x)
  have hfrac' := frac16_lt (codecEncode p x)
  rcases mag16_codecEncode_of_le_ovfLimit hp hhi with ⟨hunder, -⟩ | ⟨-, hmag⟩ <;> omega

/-- Settles O12: the fields of the result are the operand's, rebiased and truncated. -/
theorem encodeNormalRangeRebiasesAndTruncates : Obligations.EncodeNormalRangeRebiasesAndTruncates := by
  intro s x hp hlo hhi
  obtain ⟨hexp, hfrac⟩ := fields_codecEncode_of_normalRange hp hlo hhi
  have hsplit := mag32_split x
  have hfrac32 := frac32_lt x
  have he := exp32_le_of_le_ovfLimit hp hhi
  obtain ⟨-, -, hnormal, -⟩ := categoriesAreTheFieldConditions.2 (codecEncode s.params x)
  have hbound : (mag32 x - 0x38000000) >>> 13 ≤ 0x7BFF := by rw [Nat.shiftRight_eq_div_pow]; omega
  exact ⟨exec_encodeF32ToF16_of_pack16 (by omega) (codecEncode_of_normalRange hlo (by omega) hhi), hbound,
    by omega, by omega, he, hfrac, hnormal.2 (by omega)⟩

/-- R51: a binary16 normal, widened to binary32 by rebiasing and shifting, has 2^125 times as many units, each 2^125 times smaller. -/
theorem units32_pack32_of_normal {h : F16} (hlo : exp16 h ≠ 0) (hhi : exp16 h ≠ 31) :
    units32 (pack32 0 ((mag16 h + 112 * 2 ^ 10) * 2 ^ 13)) = units16 h * 2 ^ 125 := by
  have hsplit := mag16_split h
  have hfrac := frac16_lt h
  have hexp := exp16_lt h
  have hdiv : (mag16 h + 112 * 2 ^ 10) * 2 ^ 13 / 2 ^ 23 = exp16 h + 112 := by omega
  have hmod : (mag16 h + 112 * 2 ^ 10) * 2 ^ 13 % 2 ^ 23 = frac16 h * 2 ^ 13 := by omega
  have hpow : exp16 h + 112 - 1 = (exp16 h - 1) + 112 := by omega
  rw [units32_pack32 (by decide) (by omega), hdiv, hmod, if_neg (by omega), units16, if_neg hlo, hpow, pow_add]
  ring

/-- R64: among the finite binary16 patterns, those not above the result in magnitude are those not above the operand in value. -/
theorem mag16_le_codecEncode_iff {p : Params} (hp : p.wf = true) {x : F32} (hx : mag32 x ≤ p.ovfLimit.toNat) {h : F16}
    (hh : exp16 h ≠ 31) : mag16 h ≤ mag16 (codecEncode p x) ↔ units16 h * 2 ^ 125 ≤ units32 x := by
  have hsplit := mag16_split h
  have hfrac := frac16_lt h
  have hexp := exp16_lt h
  have henc := mag16_codecEncode_of_le_ovfLimit hp hx
  by_cases h0 : exp16 h = 0
  · have hunits : units16 h = mag16 h := by rw [units16, if_pos h0]; omega
    rw [hunits, ← Nat.le_div_iff_mul_le (by positivity)]
    rcases henc with ⟨-, hmag, -⟩ | ⟨hlo, hmag⟩
    · rw [hmag]
    · have hmin : mag32 0x38800000 = 0x38800000 := by decide
      have hunitsMin : units32 0x38800000 = 2 ^ 10 * 2 ^ 125 := by decide
      have hle : 2 ^ 10 ≤ units32 x / 2 ^ 125 := by
        rwa [Nat.le_div_iff_mul_le (by positivity), ← hunitsMin, units32_le_iff, hmin]
      omega
  · rw [← units32_pack32_of_normal h0 hh, units32_le_iff, mag32_pack32 (by decide) (by omega)]
    omega

/-- A binary16 pattern whose absolute value is a number is finite (R51). -/
theorem exp16_ne_of_abs_eq {h : F16} {a : ℚ} (ha : (val16 h).abs = some (a : WithTop ℚ)) : exp16 h ≠ 31 := by
  intro hh
  rw [val16_abs_special hh] at ha
  split at ha
  · exact WithTop.top_ne_coe (Option.some.inj ha)
  · cases ha

/-- R65: a result's magnitude bits are the NaN pattern's, the infinity's, or those of a finite pattern. -/
theorem mag16_codecEncode_cases {p : Params} (hp : p.wf = true) (x : F32) :
    mag16 (codecEncode p x) = 0x7FFF ∨ mag16 (codecEncode p x) = 0x7C00 ∨ mag16 (codecEncode p x) < 0x7C00 := by
  have hfrac := frac32_lt x
  obtain ⟨v, hv, heq, hcases⟩ := codecEncode_cases hp x
  rw [heq, mag16_pack16 (sign32_lt x) hv]
  rcases hcases with ⟨-, -, hnan⟩ | ⟨-, -, hinf⟩ | ⟨-, -, hover⟩ | ⟨-, -, -, hunder, -⟩ | ⟨-, hexp, -, -, hnormal⟩ <;> omega

/-- R63, R65: what does not overflow encodes to a finite pattern. -/
theorem exp16_codecEncode_ne {p : Params} (hp : p.wf = true) {x : F32} (hx : mag32 x ≤ p.ovfLimit.toNat) :
    exp16 (codecEncode p x) ≠ 31 := by
  have hexp := exp32_le_of_le_ovfLimit hp hx
  have hsplit := mag32_split x
  have hfrac := frac32_lt x
  have hsplit' := mag16_split (codecEncode p x)
  rcases mag16_codecEncode_of_le_ovfLimit hp hx with ⟨-, -, hlt⟩ | ⟨-, hmag⟩ <;> omega

/-- R62, R64: below 2^−14 the result has the whole units of 2^−24 in the operand. -/
theorem units16_codecEncode_of_underflow {p : Params} (hp : p.wf = true) {x : F32} (hx : mag32 x < 0x38800000) :
    units16 (codecEncode p x) = units32 x / 2 ^ 125 := by
  obtain ⟨hlo, -⟩ := wf_ovfLimit hp
  have hsplit := mag16_split (codecEncode p x)
  rcases mag16_codecEncode_of_le_ovfLimit hp (x := x) (by omega) with ⟨-, hmag, hlt⟩ | ⟨hnormal, -⟩
  · rw [units16, if_pos (by omega)]; omega
  · omega

/-- Units of 2^−24 and of 2^−149 compared by value (R51). -/
theorem units16_value_le_iff (u v : Nat) :
    (u : ℚ) * 2 ^ (-24 : ℤ) ≤ v * 2 ^ (-149 : ℤ) ↔ u * 2 ^ 125 ≤ v := by
  rw [show (2 : ℚ) ^ (-24 : ℤ) = 2 ^ 125 * 2 ^ (-149 : ℤ) by norm_num, ← mul_assoc,
    mul_le_mul_iff_left₀ (by positivity)]
  norm_cast

/-- The whole units of 2^−24 in a number of units of 2^−149. -/
theorem floor_units (v : Nat) : ⌊(v : ℚ) * 2 ^ (-149 : ℤ) * 2 ^ 24⌋ = ((v / 2 ^ 125 : Nat) : ℤ) := by
  have hscale : (v : ℚ) * 2 ^ (-149 : ℤ) * 2 ^ 24 = (v : ℚ) / ((2 ^ 125 : ℕ) : ℚ) := by
    push_cast; rw [mul_assoc, div_eq_mul_inv]; norm_num
  rw [hscale, Rat.floor_natCast_div_natCast, Int.natCast_ediv]

/-- Settles O24: in units of the smallest subnormals, the result is the largest pattern not above the operand. -/
theorem encodeIsTruncation : Obligations.EncodeIsTruncation := by
  intro p x hp _ _ hx
  have hexp := exp32_le_of_le_ovfLimit hp hx
  have hfinite := exp16_codecEncode_ne hp hx
  have hle := (units16_value_le_iff _ _).2 ((mag16_le_codecEncode_iff hp hx hfinite).1 le_rfl)
  refine ⟨_, _, val32_abs (by omega), val16_abs hfinite, signPassesThrough.1 p x hp, hle, fun h c hc hca => ?_,
    fun hunder => ?_, fun hflush => ?_, fun hnormal => fields_codecEncode_of_normalRange hp hnormal hx⟩
  · have hh := exp16_ne_of_abs_eq hc
    rw [val16_abs hh, Option.some_inj, WithTop.coe_inj] at hc
    subst hc
    rw [units16_value_le_iff, ← mag16_le_codecEncode_iff hp hx hh, ← units16_le_iff] at hca
    gcongr
  · rw [units16_codecEncode_of_underflow hp hunder, floor_units, Int.cast_natCast]
  · have hlt := hle.trans_lt hflush
    rw [mul_lt_iff_lt_one_left (by positivity), Nat.cast_lt_one] at hlt
    rw [hlt, Nat.cast_zero, zero_mul]

/-- R65: the four patterns with an all-ones exponent that the encoder produces, by their magnitude bits. -/
theorem mem_special_results_iff (h : F16) :
    h ∈ [0x7C00#16, 0xFC00#16, 0x7FFF#16, 0xFFFF#16] ↔ mag16 h = 0x7C00 ∨ mag16 h = 0x7FFF := by
  have hsplit := toNat_split16 h
  have hmag := mag16_lt h
  simp only [List.mem_cons, List.not_mem_nil, or_false, ← BitVec.toNat_inj, BitVec.toNat_ofNat]
  omega

/-- R49: a pattern whose exponent field is not all ones is a zero, a subnormal or a normal. -/
theorem class16_of_exp16_ne {h : F16} (hh : exp16 h ≠ 31) :
    class16 h ∈ [Category.zero, Category.subnormal, Category.normal] := by
  have hmax : binary16.expMax = 31 := rfl
  rw [class16, categoryOf, hmax, if_neg hh]
  split_ifs <;> decide

/-- Settles O26: the magnitude bits of a result leave out the patterns between the infinity and the NaN. -/
theorem encodeOutputSet : Obligations.EncodeOutputSet := by
  intro p x hp
  have hcases := mag16_codecEncode_cases hp x
  have hnat := toNat_split16 (codecEncode p x)
  have hsplit := mag16_split (codecEncode p x)
  refine ⟨by omega, by omega, fun hexp => ?_, fun hmem => class16_of_exp16_ne ?_, fun y hx hy hsgn => ?_⟩
  · rw [mem_special_results_iff]; omega
  · rw [mem_special_results_iff] at hmem
    omega
  · obtain ⟨hnan, -⟩ := regionsAreDisjointAndCoverAll p x hp
    obtain ⟨-, -, hover, -⟩ := regionsAreDisjointAndCoverAll p y hp
    obtain ⟨hfinite, hlimit⟩ := hover.1 hy
    rw [codecEncode_of_nan p ((class32_eq_nan_iff x).2 (hnan.1 hx)), codecEncode_of_overflow hfinite hlimit, hsgn]

end Sys2Proof.Machine

/-! The decoder, path by path: the instruction's answer on each path, its exactness, the set of its results, and the round trip (spec R66 to
R73). -/

namespace Sys2Proof.Machine

/-- Settles O13: the one equation of the instruction's meaning. -/
theorem decodeAnswersEveryOperand : Obligations.DecodeAnswersEveryOperand :=
  fun s ignored h => exec_decodeF16ToF32 ignored h s

/-- R66: an operand whose result has the magnitude bits `v` under its own sign is answered `(s << 31) | v`. -/
theorem exec_decodeF16ToF32_of_pack32 {s : State} {h : F16} {v : Nat} (hv : codecDecode s.params h = pack32 (sign16 h) v)
    (g : BitVec 16) :
    exec (.decodeF16ToF32 g h) s = .next (s.decodeAnswered g h (BitVec.ofNat 32 (sign16 h <<< 31 ||| v))) := by
  rw [exec_decodeF16ToF32, hv]
  rfl

/-- R67: a binary16 infinity decodes to the binary32 infinity of its sign. -/
theorem codecDecode_of_infinity (p : Params) {h : F16} (hexp : exp16 h = 31) (hfrac : frac16 h = 0) :
    codecDecode p h = pack32 (sign16 h) 0x7F800000 := by
  rw [codecDecode, if_pos ⟨hexp, hfrac⟩, exp32Mask]

/-- R69: a binary16 zero decodes to the binary32 zero of its sign. -/
theorem codecDecode_of_zero (p : Params) {h : F16} (hexp : exp16 h = 0) (hfrac : frac16 h = 0) :
    codecDecode p h = pack32 (sign16 h) 0 := by
  rw [codecDecode, if_neg (by omega), if_neg (by omega), if_pos hexp, if_pos hfrac]

/-- R69: a binary16 subnormal decodes to the exponent field of its highest 1 bit, over the bits below that bit. -/
theorem codecDecode_of_subnormal (p : Params) {h : F16} (hexp : exp16 h = 0) (hfrac : frac16 h ≠ 0) :
    codecDecode p h = pack32 (sign16 h)
      ((103 + Nat.log2 (frac16 h)) <<< 23 ||| (frac16 h <<< (23 - Nat.log2 (frac16 h))) &&& 0x007FFFFF) := by
  rw [codecDecode, if_neg (by omega), if_neg (by omega), if_pos hexp, if_neg hfrac, frac32Mask]

/-- R70: a binary16 normal decodes to its fields, rebiased and shifted. -/
theorem codecDecode_of_normal (p : Params) {h : F16} (hlo : 1 ≤ exp16 h) (hhi : exp16 h ≤ 30) :
    codecDecode p h = pack32 (sign16 h) ((exp16 h + 112) <<< 23 ||| frac16 h <<< 13) := by
  rw [codecDecode, if_neg (by omega), if_neg (by omega), if_neg (by omega), rebias, fracShift]

theorem exec_decodeF16ToF32_of_infinity (s : State) (g : BitVec 16) {h : F16} (hexp : exp16 h = 31) (hfrac : frac16 h = 0) :
    exec (.decodeF16ToF32 g h) s = .next (s.decodeAnswered g h (BitVec.ofNat 32 (sign16 h <<< 31 ||| 0x7F800000))) :=
  exec_decodeF16ToF32_of_pack32 (codecDecode_of_infinity s.params hexp hfrac) g

/-- Settles O14: the two vectors are the infinity path at its two signs. -/
theorem decodeOfInfinityIsInfinity : Obligations.DecodeOfInfinityIsInfinity :=
  ⟨fun s g _ hexp hfrac => exec_decodeF16ToF32_of_infinity s g hexp hfrac, fun s g =>
    ⟨exec_decodeF16ToF32_of_infinity s g (h := 0x7C00) (by decide) (by decide),
      exec_decodeF16ToF32_of_infinity s g (h := 0xFC00) (by decide) (by decide)⟩⟩

/-- R68: with the parameter in its range, every binary16 NaN decodes to a binary32 NaN. -/
theorem class32_codecDecode_of_nan {p : Params} (hp : p.wf = true) {h : F16} (hh : class16 h = .nan) :
    class32 (codecDecode p h) = .nan := by
  rw [codecDecode_of_nan p hh]
  exact class32_canonicalNan32 hp (sign16_lt h)

/-- Settles O15: the result is the canonical NaN of the operand's sign. -/
theorem decodeOfNanIsTheParameterNan : Obligations.DecodeOfNanIsTheParameterNan := by
  refine ⟨fun s g h hexp hfrac => ?_, fun p h hp hexp hfrac => ?_, fun p h hp hexp hfrac => ?_⟩
  · exact exec_decodeF16ToF32_of_pack32 (codecDecode_of_nan s.params ((class16_eq_nan_iff h).2 ⟨hexp, hfrac⟩)) g
  · exact class32_codecDecode_of_nan hp ((class16_eq_nan_iff h).2 ⟨hexp, hfrac⟩)
  · rw [codecDecode_of_nan p ((class16_eq_nan_iff h).2 ⟨hexp, hfrac⟩)]
    exact canonicalNan32_eq_ite hp (sign16_lt h)

/-- R69, R70: the fields of the result for a finite operand. -/
theorem fields_codecDecode_of_finite (p : Params) {h : F16} (hh : exp16 h ≠ 31) :
    (exp16 h = 0 ∧ frac16 h = 0 ∧ exp32 (codecDecode p h) = 0 ∧ frac32 (codecDecode p h) = 0) ∨
    (exp16 h = 0 ∧ frac16 h ≠ 0 ∧ exp32 (codecDecode p h) = 103 + Nat.log2 (frac16 h) ∧ Nat.log2 (frac16 h) ≤ 9 ∧
      frac32 (codecDecode p h) = (frac16 h - 2 ^ Nat.log2 (frac16 h)) * 2 ^ (23 - Nat.log2 (frac16 h))) ∨
    (1 ≤ exp16 h ∧ exp16 h ≤ 30 ∧ exp32 (codecDecode p h) = exp16 h + 112 ∧
      frac32 (codecDecode p h) = frac16 h * 2 ^ 13) := by
  have hfrac := frac16_lt h
  obtain ⟨v, hv, heq, hcases⟩ := codecDecode_cases p h
  rw [heq, exp32_pack32 (sign16_lt h) hv, frac32_pack32 (sign16_lt h) hv]
  rcases hcases with ⟨hinf, -⟩ | ⟨hnan, -⟩ | ⟨hexp, hzero, rfl⟩ | ⟨hexp, hne, k, hk, hlo, hhi, rfl⟩ | ⟨hlo, hhi, rfl⟩
  · exact absurd hinf hh
  · exact absurd hnan hh
  · exact .inl ⟨hexp, hzero, rfl, rfl⟩
  · have hlog : Nat.log2 (frac16 h) = k := (Nat.log2_eq_iff hne).2 ⟨hlo, hhi⟩
    have hlow : (frac16 h - 2 ^ k) * 2 ^ (23 - k) < 2 ^ 23 := by
      calc (frac16 h - 2 ^ k) * 2 ^ (23 - k) < 2 ^ k * 2 ^ (23 - k) :=
            Nat.mul_lt_mul_of_pos_right (by rw [pow_succ] at hhi; omega) (by positivity)
        _ = 2 ^ 23 := by rw [← pow_add, Nat.add_sub_cancel' (by omega)]
    rw [hlog]
    exact .inr (.inl ⟨hexp, hne, by omega, hk, by omega⟩)
  · exact .inr (.inr ⟨hlo, hhi, by omega, by omega⟩)

/-- R71: the result for a finite operand has 2^125 times as many units, each 2^125 times smaller. -/
theorem units32_codecDecode (p : Params) {h : F16} (hh : exp16 h ≠ 31) :
    units32 (codecDecode p h) = units16 h * 2 ^ 125 := by
  rw [units32, units16]
  rcases fields_codecDecode_of_finite p hh with
    ⟨hexp, hfrac, hexp', hfrac'⟩ | ⟨hexp, hne, hexp', hk, hfrac'⟩ | ⟨hlo, -, hexp', hfrac'⟩
  · rw [if_pos hexp', if_pos hexp, hfrac', hfrac, Nat.zero_mul]
  · have hlog := Nat.log2_self_le hne
    generalize Nat.log2 (frac16 h) = k at *
    have hsig : 2 ^ 23 + (frac16 h - 2 ^ k) * 2 ^ (23 - k) = frac16 h * 2 ^ (23 - k) := by
      have hlead : 2 ^ 23 = 2 ^ k * 2 ^ (23 - k) := by rw [← pow_add, Nat.add_sub_cancel' (by omega)]
      rw [hlead, ← Nat.add_mul, Nat.add_sub_cancel' hlog]
    rw [if_neg (by omega), if_pos hexp, hfrac', hexp', hsig, Nat.mul_assoc, ← pow_add]
    congr 2
    omega
  · have hpow : exp16 h + 112 - 1 = exp16 h - 1 + 112 := by omega
    rw [if_neg (by omega), if_neg (by omega), hfrac', hexp', hpow, pow_add]
    ring

/-- R51: the value of a finite nonzero binary32 pattern, with its sign. -/
theorem val32_eq_units {x : F32} (hx : exp32 x ≠ 255) (hne : ¬ (exp32 x = 0 ∧ frac32 x = 0)) :
    val32 x = .finite ((-1) ^ sign32 x * (units32 x : ℚ) * 2 ^ (-149 : ℤ)) :=
  valueOf_units (f := binary32) hx hne

/-- R51: the value of a finite nonzero binary16 pattern, with its sign. -/
theorem val16_eq_units {h : F16} (hh : exp16 h ≠ 31) (hne : ¬ (exp16 h = 0 ∧ frac16 h = 0)) :
    val16 h = .finite ((-1) ^ sign16 h * (units16 h : ℚ) * 2 ^ (-24 : ℤ)) :=
  valueOf_units (f := binary16) hh hne

/-- R71 for a finite operand. -/
theorem val32_codecDecode_of_finite (p : Params) {h : F16} (hh : exp16 h ≠ 31) : val32 (codecDecode p h) = val16 h := by
  have hsign := signPassesThrough.2 p h
  have hfields := fields_codecDecode_of_finite p hh
  by_cases hzero : exp16 h = 0 ∧ frac16 h = 0
  · obtain ⟨hexp, hfrac⟩ : exp32 (codecDecode p h) = 0 ∧ frac32 (codecDecode p h) = 0 := by omega
    rw [val32, val16, hsign, hexp, hfrac, hzero.1, hzero.2, valueOf_zero, valueOf_zero]
  · rw [val32_eq_units (by omega) (by omega), val16_eq_units hh hzero, hsign, units32_codecDecode p hh]
    congr 1
    push_cast
    rw [show (2 : ℚ) ^ (-24 : ℤ) = 2 ^ 125 * 2 ^ (-149 : ℤ) by norm_num]
    ring

/-- R71 for an infinity. -/
theorem val32_codecDecode_of_infinity (p : Params) {h : F16} (hexp : exp16 h = 31) (hfrac : frac16 h = 0) :
    val32 (codecDecode p h) = val16 h := by
  have hs := sign16_lt h
  rw [codecDecode_of_infinity p hexp hfrac, val32, val16, sign32_pack32 hs (by decide), exp32_pack32 hs (by decide),
    frac32_pack32 hs (by decide), hexp, hfrac]
  rfl

/-- Settles O28: a pattern that is not NaN is finite, with its units scaled, or an infinity. -/
theorem decodeIsExact : Obligations.DecodeIsExact := by
  intro p h hh
  rw [Ne, class16_eq_nan_iff] at hh
  by_cases hexp : exp16 h = 31
  · exact val32_codecDecode_of_infinity p hexp (by omega)
  · exact val32_codecDecode_of_finite p hexp

/-- The highest 1 bit of a number is its logarithm. -/
theorem log2_eq_of_highest_bit {m q : Nat} (hq : m.testBit q = true) (habove : ∀ j, q < j → m.testBit j = false) :
    Nat.log2 m = q := by
  have hlo := Nat.ge_two_pow_of_testBit hq
  have hpos : 0 < 2 ^ q := by positivity
  exact (Nat.log2_eq_iff (by omega)).2 ⟨hlo, Nat.lt_pow_two_of_testBit m habove⟩

/-- Settles O16: the highest 1 bit is the logarithm of the fraction, and the value is the operand's own. -/
theorem decodeOfZeroOrSubnormalIsExact : Obligations.DecodeOfZeroOrSubnormalIsExact := by
  constructor
  · intro s g h hexp hfrac
    simpa only [Nat.or_zero] using exec_decodeF16ToF32_of_pack32 (codecDecode_of_zero s.params hexp hfrac) g
  · intro s g h q hexp hbit habove
    have hne : frac16 h ≠ 0 := by
      intro hzero
      rw [hzero, Nat.zero_testBit] at hbit
      cases hbit
    obtain rfl := log2_eq_of_highest_bit hbit habove
    have hfields := fields_codecDecode_of_finite s.params (h := h) (by omega)
    refine ⟨by omega, ?_, by omega, ?_⟩
    · rw [Nat.or_assoc]
      exact exec_decodeF16ToF32_of_pack32 (codecDecode_of_subnormal s.params hexp hne) g
    · rw [val32_codecDecode_of_finite s.params (by omega), val16_eq_units (by omega) (by omega), units16, if_pos hexp]

/-- Settles O17: the fields of the result are the operand's, rebiased and shifted. -/
theorem decodeOfNormalRebiasesAndShifts : Obligations.DecodeOfNormalRebiasesAndShifts := by
  intro s g h hlo hhi
  have hfields := fields_codecDecode_of_finite s.params (h := h) (by omega)
  refine ⟨?_, by omega, by omega, by omega, by omega, by omega⟩
  rw [Nat.or_assoc]
  exact exec_decodeF16ToF32_of_pack32 (codecDecode_of_normal s.params hlo hhi) g

/-- A pattern with both fields 0 is one of the two zeros. -/
theorem eq_zero_of_fields {x : F32} (hexp : exp32 x = 0) (hfrac : frac32 x = 0) : x = 0x00000000 ∨ x = 0x80000000 := by
  have hsign := sign32_lt x
  rw [← pack32_self x, mag32_split, hexp, hfrac]
  interval_cases sign32 x
  · exact .inl rfl
  · exact .inr rfl

/-- R67, R68, R72: with an all-ones exponent field the result is one of two infinities and two NaNs. -/
theorem codecDecode_mem_of_special (p : Params) {h : F16} (hh : exp16 h = 31) : codecDecode p h ∈
    [0x7F800000#32, 0xFF800000#32, BitVec.ofNat 32 p.decNan.toNat, BitVec.ofNat 32 (1 <<< 31 ||| p.decNan.toNat)] := by
  have hs := sign16_lt h
  by_cases hfrac : frac16 h = 0
  · rw [codecDecode_of_infinity p hh hfrac]
    interval_cases sign16 h <;> simp [pack32]
  · rw [codecDecode_of_nan p ((class16_eq_nan_iff h).2 ⟨hh, hfrac⟩), canonicalNan32]
    interval_cases sign16 h <;> simp [pack32]

/-- R67, R68, R72: an all-ones exponent field stays all ones. -/
theorem exp32_codecDecode_of_special {p : Params} (hp : p.wf = true) {h : F16} (hh : exp16 h = 31) :
    exp32 (codecDecode p h) = 255 := by
  by_cases hfrac : frac16 h = 0
  · rw [codecDecode_of_infinity p hh hfrac, exp32_pack32 (sign16_lt h) (by decide)]; rfl
  · have hnan := class32_codecDecode_of_nan hp ((class16_eq_nan_iff h).2 ⟨hh, hfrac⟩)
    exact ((class32_eq_nan_iff _).1 hnan).1

/-- Settles O29: a finite operand's fields are known, and any other operand gives one of four patterns, all with exponent field 255. -/
theorem decodeOutputSet : Obligations.DecodeOutputSet := by
  intro p h hp
  obtain ⟨-, hsubnormal, -⟩ := categoriesAreTheFieldConditions.1 (codecDecode p h)
  rw [Ne, hsubnormal]
  by_cases hh : exp16 h = 31
  · have hexp := exp32_codecDecode_of_special hp hh
    exact ⟨by omega, by omega, .inr (.inr hexp), fun _ => codecDecode_mem_of_special p hh⟩
  · have hfields := fields_codecDecode_of_finite p hh
    exact ⟨by omega, fun hexp => eq_zero_of_fields hexp (by omega), by omega, by omega⟩

/-- R70, R73: no finite operand decodes to a magnitude above `P_OVF_LIMIT`, whose range begins at the largest of them. -/
theorem mag32_codecDecode_le_ovfLimit {p : Params} (hp : p.wf = true) {h : F16} (hh : exp16 h ≠ 31) :
    mag32 (codecDecode p h) ≤ p.ovfLimit.toNat := by
  obtain ⟨hlimit, -⟩ := wf_ovfLimit hp
  have hsplit := mag32_split (codecDecode p h)
  have hfrac := frac16_lt h
  have hfrac' := frac32_lt (codecDecode p h)
  rcases fields_codecDecode_of_finite p hh with ⟨-, -, hexp, -⟩ | ⟨-, -, hexp, hk, -⟩ | ⟨-, hhi, hexp, hfield⟩ <;> omega

/-- R73 for a finite operand: truncation takes nothing from a value that binary16 represents. -/
theorem codecEncode_codecDecode_of_finite {p : Params} (hp : p.wf = true) {h : F16} (hh : exp16 h ≠ 31) :
    codecEncode p (codecDecode p h) = h := by
  have hlimit := mag32_codecDecode_le_ovfLimit hp hh
  have hsign : sign16 (codecEncode p (codecDecode p h)) = sign16 h :=
    (signPassesThrough.1 p _ hp).trans (signPassesThrough.2 p h)
  have hge : mag16 h ≤ mag16 (codecEncode p (codecDecode p h)) :=
    (mag16_le_codecEncode_iff hp hlimit hh).2 (units32_codecDecode p hh).ge
  have hle : mag16 (codecEncode p (codecDecode p h)) ≤ mag16 h := by
    have hunits := (mag16_le_codecEncode_iff hp hlimit (exp16_codecEncode_ne hp hlimit)).1 le_rfl
    rw [units32_codecDecode p hh] at hunits
    exact units16_le_iff.1 (Nat.le_of_mul_le_mul_right hunits (by positivity))
  rw [← pack16_self (codecEncode p (codecDecode p h)), hsign, hle.antisymm hge, pack16_self]

/-- R73 for an infinity. -/
theorem codecEncode_codecDecode_of_infinity (p : Params) {h : F16} (hexp : exp16 h = 31) (hfrac : frac16 h = 0) :
    codecEncode p (codecDecode p h) = h := by
  have hs := sign16_lt h
  have hmag : mag16 h = 0x7C00 := by rw [mag16_split, hexp, hfrac]; rfl
  rw [codecDecode_of_infinity p hexp hfrac, codecEncode_of_infinity p (exp32_pack32 hs (by decide)) (frac32_pack32 hs (by decide)),
    sign32_pack32 hs (by decide), ← hmag, pack16_self]

/-- Settles O30: finite patterns and infinities come back; a NaN decodes to a NaN, whose payload the encoder does not keep. -/
theorem roundTripLaw : Obligations.RoundTripLaw := by
  constructor
  · intro p h hp hh
    rw [Ne, class16_eq_nan_iff] at hh
    by_cases hexp : exp16 h = 31
    · exact codecEncode_codecDecode_of_infinity p hexp (by omega)
    · exact codecEncode_codecDecode_of_finite hp hexp
  · intro p hp
    have hnan : class16 0x7C01 = .nan := by decide
    rw [codecEncode_of_nan p (class32_codecDecode_of_nan hp hnan), signPassesThrough.2]
    rfl

/-- Settles O31: each request is answered by its unit, and the two units' answers compose to the operand. -/
theorem roundTripThroughRequests : Obligations.RoundTripThroughRequests := by
  intro s g h hp hh
  refine ⟨codecDecode s.params h, _, exec_decodeF16ToF32 g h s, exec_encodeF32ToF16 _ _, ?_⟩
  have hparams : (s.decodeAnswered g h (codecDecode s.params h)).params = s.params := rfl
  rw [hparams, roundTripLaw.1 s.params h hp hh]
  simp [State.encodeAnswered, State.decodeAnswered, encResult]

end Sys2Proof.Machine

/-! The datapath's integers: on every path the exact integer of the pseudocode is the result, so nothing wraps (spec R95). -/

namespace Sys2Proof.Machine

/-- R10, R95: packing 15 magnitude bits under a sign bit drops nothing of the exact integer. -/
theorem pack16_toNat_eq_or {s v : Nat} (hs : s < 2) (hv : v < 2 ^ 15) : (pack16 s v).toNat = s <<< 15 ||| v := by
  rw [pack16_toNat hs hv, shiftLeft_or_eq s hv]

/-- R10, R95: packing 31 magnitude bits under a sign bit drops nothing of the exact integer. -/
theorem pack32_toNat_eq_or {s v : Nat} (hs : s < 2) (hv : v < 2 ^ 31) : (pack32 s v).toNat = s <<< 31 ||| v := by
  rw [pack32_toNat hs hv, shiftLeft_or_eq s hv]

/-- R62, R95: in the underflow region the result is the significand under its sign, and only the sign from a shift of 11 on. -/
theorem codecEncode_toNat_of_underflow {p : Params} (hp : p.wf = true) {x : F32} (hx : mag32 x < 0x38800000) :
    (codecEncode p x).toNat = sign32 x <<< 15 ||| (0x00800000 ||| frac32 x) >>> (113 - exp32 x + 13) ∧
    (11 ≤ 113 - exp32 x → (codecEncode p x).toNat = sign32 x <<< 15) := by
  have hfrac := frac32_lt x
  have hsplit := mag32_split x
  have hsig : 0x00800000 ||| frac32 x = 2 ^ 23 + frac32 x := hidden32_or hfrac
  have hshift := significand_shift_lt (m := 0x00800000 ||| frac32 x) (sh := 113 - exp32 x) (by omega) (by omega)
  have hv : (0x00800000 ||| frac32 x) >>> (113 - exp32 x + 13) < 2 ^ 15 := by
    rw [Nat.shiftRight_add, Nat.shiftRight_eq_div_pow _ 13]; omega
  have hnat : (codecEncode p x).toNat = sign32 x <<< 15 ||| (0x00800000 ||| frac32 x) >>> (113 - exp32 x + 13) := by
    rw [codecEncode_of_underflow hp hx, ← Nat.shiftRight_add, pack16_toNat_eq_or (sign32_lt x) hv]
  refine ⟨hnat, fun hsh => ?_⟩
  rw [hnat, Nat.shiftRight_add, significand_shift_eq_zero (by omega) hsh, Nat.or_zero]

/-- R63, R95: in the normal range the rebiasing subtraction stays at or above the implicit 1, and its shift below the infinity's bits. -/
theorem codecEncode_toNat_of_normalRange {p : Params} (hp : p.wf = true) {x : F32} (hlo : 0x38800000 ≤ mag32 x)
    (hhi : mag32 x ≤ p.ovfLimit.toNat) : (mag32 x - 0x38000000) >>> 13 ≤ 0x7BFF ∧
    (codecEncode p x).toNat = sign32 x <<< 15 ||| (mag32 x - 0x38000000) >>> 13 := by
  obtain ⟨-, hlimit⟩ := wf_ovfLimit hp
  have hexp := exp32_le_of_le_ovfLimit hp hhi
  have hbound : (mag32 x - 0x38000000) >>> 13 ≤ 0x7BFF := by rw [Nat.shiftRight_eq_div_pow]; omega
  refine ⟨hbound, ?_⟩
  rw [codecEncode_of_normalRange hlo (by omega) hhi, pack16_toNat_eq_or (sign32_lt x) (by omega)]

/-- R69, R95: with its highest 1 bit moved to bit 23, a number loses that bit alone to the fraction mask. -/
theorem shiftLeft_eq_leading_add_masked {m q : Nat} (hq : q ≤ 23) (hlo : 2 ^ q ≤ m) (hhi : m < 2 ^ (q + 1)) :
    m <<< (23 - q) = 2 ^ 23 + ((m <<< (23 - q)) &&& 0x007FFFFF) := by
  have hlead : 2 ^ q * 2 ^ (23 - q) = 2 ^ 23 := by rw [← pow_add, Nat.add_sub_cancel' hq]
  have hge : 2 ^ 23 ≤ m * 2 ^ (23 - q) := hlead ▸ Nat.mul_le_mul_right _ hlo
  have hlt : m * 2 ^ (23 - q) < 2 ^ 24 := by
    calc m * 2 ^ (23 - q) < 2 ^ (q + 1) * 2 ^ (23 - q) := Nat.mul_lt_mul_of_pos_right hhi (by positivity)
      _ = 2 ^ 24 := by rw [pow_succ, mul_right_comm, hlead, ← pow_succ]
  have hmask : m * 2 ^ (23 - q) &&& 0x007FFFFF = m * 2 ^ (23 - q) % 2 ^ 23 := Nat.and_two_pow_sub_one_eq_mod _ 23
  rw [Nat.shiftLeft_eq]
  omega

/-- R69, R95: a binary16 subnormal decodes, without loss, to the exponent field of its highest 1 bit over the masked shift. -/
theorem codecDecode_toNat_of_subnormal (p : Params) {h : F16} (hexp : exp16 h = 0) (hfrac : frac16 h ≠ 0) :
    (codecDecode p h).toNat = sign16 h <<< 31 ||| (103 + Nat.log2 (frac16 h)) <<< 23 |||
      (frac16 h <<< (23 - Nat.log2 (frac16 h))) &&& 0x007FFFFF := by
  have hq : Nat.log2 (frac16 h) < 10 := (Nat.log2_lt hfrac).2 (frac16_lt h)
  have hlow : (frac16 h <<< (23 - Nat.log2 (frac16 h))) &&& 0x007FFFFF < 2 ^ 23 := Nat.and_lt_two_pow _ (by decide)
  have hv : (103 + Nat.log2 (frac16 h)) <<< 23 ||| (frac16 h <<< (23 - Nat.log2 (frac16 h))) &&& 0x007FFFFF < 2 ^ 31 := by
    rw [shiftLeft_or_eq _ hlow]; omega
  rw [codecDecode_of_subnormal p hexp hfrac, pack32_toNat_eq_or (sign16_lt h) hv, Nat.or_assoc]

/-- R70, R95: a binary16 normal decodes, without loss, to its rebiased exponent over its shifted fraction. -/
theorem codecDecode_toNat_of_normal (p : Params) {h : F16} (hlo : 1 ≤ exp16 h) (hhi : exp16 h ≤ 30) :
    frac16 h <<< 13 < 2 ^ 23 ∧
    (codecDecode p h).toNat = sign16 h <<< 31 ||| (exp16 h + 112) <<< 23 ||| frac16 h <<< 13 := by
  have hlow : frac16 h <<< 13 < 2 ^ 23 := by
    have hfrac := frac16_lt h
    rw [Nat.shiftLeft_eq]; omega
  have hv : (exp16 h + 112) <<< 23 ||| frac16 h <<< 13 < 2 ^ 31 := by rw [shiftLeft_or_eq _ hlow]; omega
  exact ⟨hlow, by rw [codecDecode_of_normal p hlo hhi, pack32_toNat_eq_or (sign16_lt h) hv, Nat.or_assoc]⟩

/-- Settles O32: on each path the magnitude bits fit below the sign, so packing them is exact; the highest 1 bit of a subnormal is its
logarithm. -/
theorem datapathStaysInRange : Obligations.DatapathStaysInRange := by
  refine ⟨fun p x hp => ⟨fun hexp hfrac => ?_, fun hexp hfrac => ?_, fun hexp hover => ?_, fun hunder => ?_,
    fun hlo hhi => ?_⟩, fun p h => ⟨fun hexp hfrac => ?_, fun hexp hfrac => ?_, fun hexp hfrac => ?_,
    fun hexp hfrac => ?_, fun hlo hhi => ?_⟩⟩
  · rw [codecEncode_of_nan p ((class32_eq_nan_iff x).2 ⟨hexp, hfrac⟩), canonicalNan16,
      pack16_toNat_eq_or (sign32_lt x) (by decide), encNan]
  · rw [codecEncode_of_infinity p hexp hfrac, pack16_toNat_eq_or (sign32_lt x) (by decide)]
  · rw [codecEncode_of_overflow hexp hover, canonicalNan16, pack16_toNat_eq_or (sign32_lt x) (by decide), encNan]
  · have hsplit := mag32_split x
    obtain ⟨hnat, hflush⟩ := codecEncode_toNat_of_underflow hp hunder
    exact ⟨by omega, by omega, by omega, by omega, by omega, hnat, hflush⟩
  · exact ⟨by omega, codecEncode_toNat_of_normalRange hp hlo hhi⟩
  · rw [codecDecode_of_infinity p hexp hfrac, pack32_toNat_eq_or (sign16_lt h) (by decide)]
  · rw [codecDecode_of_nan p ((class16_eq_nan_iff h).2 ⟨hexp, hfrac⟩), canonicalNan32,
      pack32_toNat_eq_or (sign16_lt h) p.decNan.isLt]
  · rw [codecDecode_of_zero p hexp hfrac, pack32_toNat_eq_or (sign16_lt h) (by decide), Nat.or_zero]
  · have hq : Nat.log2 (frac16 h) < 10 := (Nat.log2_lt hfrac).2 (frac16_lt h)
    have habove : ∀ j, Nat.log2 (frac16 h) < j → (frac16 h).testBit j = false := fun j hj =>
      Nat.testBit_lt_two_pow ((Nat.log2_lt hfrac).1 hj)
    refine ⟨Nat.log2 (frac16 h), by omega, Nat.testBit_log2 hfrac, habove, by omega, by omega,
      Nat.and_lt_two_pow _ (by decide),
      shiftLeft_eq_leading_add_masked (by omega) (Nat.log2_self_le hfrac) Nat.lt_log2_self,
      codecDecode_toNat_of_subnormal p hexp hfrac, ?_⟩
    rw [val32_codecDecode_of_finite p (by omega), val16_eq_units (by omega) (by omega), units16, if_pos hexp]
  · exact ⟨by omega, by omega, codecDecode_toNat_of_normal p hlo hhi⟩

end Sys2Proof.Machine

/-! When a step answers and when it is refused, and a whole run over driven inputs (spec R74, R93, R94). -/

namespace Sys2Proof.Machine

/-- With nothing asked a step is idle (log entry 5). -/
theorem step_of_pending_nil {s : State} (hs : s.pending = []) : step s = .next s := by
  simp [step, hs, idle]

/-- A step at an undriven stimulus is refused (R94). -/
theorem step_undriven {s : State} {st : Stimulus} {rest : List Stimulus} (hs : s.pending = st :: rest) (hd : st.driven = false) :
    ∃ port, step s = .refused (.undrivenInput port) :=
  step_of_pending_cons hs ▸ serve_undriven hd (setPending rest s)

/-- When a step answers: the stimulus it serves, if there is one, is driven (R93, R94). -/
theorem step_answers_iff (s : State) : (∃ t, step s = .next t) ↔ ∀ st ∈ s.pending.head?, st.driven = true := by
  constructor
  · rintro ⟨t, hstep⟩ st hst
    obtain ⟨hnil, -⟩ | ⟨st', rest, hcons, hd, -⟩ := step_cases hstep
    · simp [hnil] at hst
    · obtain rfl : st' = st := by simpa [hcons] using hst
      exact hd
  · intro hdriven
    cases hs : s.pending with
    | nil => exact ⟨s, step_of_pending_nil hs⟩
    | cons st rest =>
      obtain ⟨t, hstep, -⟩ := step_driven hs (hdriven st (by simp [hs]))
      exact ⟨t, hstep⟩

/-- Settles O41: what is asked next decides between an answer and a refusal; and there is no reason a step could fault for (R74). -/
theorem stepStopsOnlyOnUndrivenInput : Obligations.StepStopsOnlyOnUndrivenInput := by
  refine fun s => ⟨step_answers_iff s, ?_, nofun⟩
  rintro ⟨st, hst, hd⟩
  obtain ⟨rest, hs⟩ := List.head?_eq_some_iff.1 hst
  exact step_undriven hs hd

/-- Settles O48: the run over driven stimuli, from a state where they are all that is pending. -/
theorem runAnswersEverythingAsked : Obligations.RunAnswersEverythingAsked :=
  fun _ hsafe => run_driven hsafe rfl

end Sys2Proof.Machine

/-! The outputs at every moment, and the step with nothing asked (spec R89, R93). -/

namespace Sys2Proof.Machine

/-- Settles O37: each output is read off its own input's driven lines, whatever else the state holds, so the clause at power-up is an
instance of the first two (R89). -/
theorem outputsFollowInputsAtEveryMoment : Obligations.OutputsFollowInputsAtEveryMoment := by
  refine ⟨fun _ _ => encOut_of_encIn_known, fun _ _ => decOut_of_decIn_known, fun x h => ⟨?_, ?_⟩⟩
  · exact encOut_of_encIn_known (s := { State.reset with encIn := Lines.known x }) rfl
  · exact decOut_of_decIn_known (s := { State.reset with decIn := Lines.known h }) rfl

/-- Settles O42: the step finds no stimulus to serve and is idle (log entry 5). -/
theorem idleStepChangesNothing : Obligations.IdleStepChangesNothing :=
  fun _ => step_of_pending_nil

end Sys2Proof.Machine
